-- ==== Sys2Proof/Word.lean ====
section
/-! DEFINITION. Word.lean: the plainest type of the model. The core moves bits, not bytes (20_memory.md R52), so there is
no byte and no machine word here. A bit is a `Bool`: `false` is 0 and `true` is 1 (00_scope.md R10). Positions
(1-indexed, named `p`) and sequence indices (0-indexed, named `s` or `j`) are both `Nat`, since the rules do arithmetic
across them; `seqIndex` is the one conversion (00_scope.md R8). -/

namespace Sys2Proof

/-- A data or codeword sequence in the order of the interchange format (48_host_interface.md R230): element 0 is
data bit `D[0]`, or codeword position 1. -/
abbrev BitSeq := List Bool

end Sys2Proof
end

