-- ==== Sys2Proof/Config.lean ====
section
/-! DEFINITION. Config.lean: what one elaborated instance of the hardware fixes, its data width `K`
(00_scope.md R5, 92_eei_decisions.md D1), and the failures of 60_exceptions.md R267. No other implementation
parameter exists (R6). The spec leaves two things open that are not fixed by an implementation, the power-up register
(R292) and the injector's random positions (R235, R237). Each is an ARGUMENT of the definition that uses it
(`powerUp`, `injectSingle`, `injectDouble`), so a claim holds for every draw. -/

namespace Sys2Proof

/-- One elaborated instance: its data width, an integer with no upper bound and the premise `K ≥ 1`
(00_scope.md R5, R7). An instance with `K < 1` does not exist (60_exceptions.md R261). -/
structure Config where
  K : Nat
  one_le_K : 1 ≤ K
deriving DecidableEq, Repr

/-- The instance the model's `State.reset` stands for: `K = 8`, the width of the source's own scenario
(95_test_vectors.md V-L1-1). DESIGN CHOICE (notes/assumptions/2.md), unsafe where a claim about it
is read for every `K`: the spec leaves `K` open. -/
def Config.default : Config := { K := 8, one_le_K := by decide }

/-- The failure taxonomy of 60_exceptions.md R267, in its order (the codes are `failureCode`). Each constructor
records the information the table gives. None is a hardware trap (R260). -/
inductive Failure where
  /-- Code 1. Raised by `derive` at elaboration for `K < 1` (R261). Safe: no machine exists. -/
  | invalidWidth (k : Int)
  /-- Code 2. Raised by the host adapter when a sequence has the wrong length (R262). Safe: no request is made. -/
  | wrongLength (actual expected : Nat)
  /-- Code 3. Raised by the host adapter at the first element that is not 0 or 1 (R263). Safe: no request is made. -/
  | invalidSymbol (index : Nat)
  /-- Code 4. Raised by the injector for an explicit position outside `[1, N]` (R264). Safe: host side only. -/
  | positionOutOfRange (positions : List Int)
  /-- Code 5. Raised by `injectDouble` for two equal explicit positions (R264). Safe: host side only. -/
  | duplicatePosition (position : Int)
  /-- Code 6. Raised by `injectDouble` with exactly one explicit position (R264). Safe: host side only. -/
  | incompletePositionPair (position : Int)
  /-- Code 7. The block's only own condition, reported as `rsp_status = 1` and never as a stop (R265). -/
  | illegalOp
deriving DecidableEq, Repr

end Sys2Proof
end

