-- ==== Sys2Proof/Machine/Params.lean ====
section
/-! DEFINITION. Machine/Params.lean: the parameter deriver, which the requester calls the bit-position calculator
(40_parameters.md). Everything here is a function of the data width `K` alone. -/

namespace Sys2Proof.Machine

/-- The least `q ≥ p` that satisfies `ok`, searched upwards by at most `fuel` increments. -/
def leastFrom (ok : Nat → Bool) : (fuel p : Nat) → Nat
  | 0, p => p
  | fuel + 1, p => if ok p then p else leastFrom ok fuel (p + 1)

/-- `P_SEC`: the least `p ≥ 0` with `2^p ≥ K + p + 1`, found by incrementing a candidate from 0 (R101). The loop ends
within `K + 1` increments (`pSec_covers`). -/
def pSec (K : Nat) : Nat := leastFrom (fun p => decide (K + p + 1 ≤ 2 ^ p)) (K + 1) 0

/-- `P_DED` (R102). -/
def pDed (K : Nat) : Nat := pSec K + 1

/-- `N`, the codeword length (R103). -/
def nBits (K : Nat) : Nat := K + pDed K

/-- `W_POS`, the bit length of `N`: the least `w ≥ 1` with `N < 2^w` (00_scope.md R6). -/
def wPos (K : Nat) : Nat := leastFrom (fun w => decide (nBits K < 2 ^ w)) (nBits K) 1

/-- `W_REQ`, the length of a packed request word (30_encoding.md R70). -/
def wReq (K : Nat) : Nat := 2 + nBits K + K

/-- The positions `[lo, hi]` in ascending order. -/
def positions (lo hi : Nat) : List Nat := List.range' lo (hi + 1 - lo)

/-- `secParityPositions` (R104): element `i` is `2^i`. -/
def secParityPositions (K : Nat) : List Nat := (List.range (pSec K)).map (fun i => 2 ^ i)

/-- `dataPositions` (R105): ascending, the positions of `[1, K+P_SEC]` that are no check position. -/
def dataPositions (K : Nat) : List Nat :=
  (positions 1 (K + pSec K)).filter (fun b => !(secParityPositions K).contains b)

/-- `overallParityPosition` (R106). -/
def overallParityPosition (K : Nat) : Nat := nBits K

/-- The CodeParameters record (40_parameters.md R100, 00_scope.md R14). It is configuration, not state
(10_state.md R28). -/
structure CodeParameters where
  K : Nat
  pSec : Nat
  pDed : Nat
  n : Nat
  secParityPositions : List Nat
  dataPositions : List Nat
  overallParityPosition : Nat
deriving DecidableEq, Repr

/-- The record of width `K` (R100's return value). -/
def codeParameters (K : Nat) : CodeParameters :=
  { K := K, pSec := pSec K, pDed := pDed K, n := nBits K,
    secParityPositions := secParityPositions K, dataPositions := dataPositions K,
    overallParityPosition := overallParityPosition K }

/-- `derive` (R100): `InvalidWidth` for every `k < 1`, negative ones included, and the record otherwise. -/
def derive (k : Int) : Except Failure CodeParameters :=
  if k < 1 then .error (.invalidWidth k) else .ok (codeParameters k.toNat)

/-- The three kinds of role a position can have (R109). -/
inductive Role where
  | sec (i : Nat)
  | data (j : Nat)
  | ovp
deriving DecidableEq, Repr

/-- The bit-position calculator's role function (R109); a position outside `[1, N]` has no role. -/
def role (K : Nat) (p : Nat) : Option Role :=
  if p = overallParityPosition K then some .ovp
  else if (secParityPositions K).contains p then some (.sec ((secParityPositions K).idxOf p))
  else if (dataPositions K).contains p then some (.data ((dataPositions K).idxOf p))
  else none

/-- The headroom `H = 2^P_SEC - N` (R112 (d)); it is never negative (`nBits_le_two_pow_pSec`). -/
def headroom (K : Nat) : Nat := 2 ^ pSec K - nBits K

end Sys2Proof.Machine
end

