-- ==== Sys2Proof/Machine/Operands.lean ====
section
/-! DEFINITION. Machine/Operands.lean: the two operand forms of 30_encoding.md R73, as port vectors and as sequences;
the packing between them (10_state.md R23); the access to one codeword position (00_scope.md R8); binary digits (R9);
and the exclusive or over a set of positions (R10). No operand is an immediate, and none is extended, scaled or shifted
(R73). -/

namespace Sys2Proof.Machine

/-- The one conversion from a 1-indexed position to a 0-indexed sequence index (00_scope.md R8,
48_host_interface.md R231). 0 is no position; every use has `p ≥ 1`. DESIGN CHOICE (notes/assumptions/13.md), safe. -/
def seqIndex (p : Nat) : Nat := p - 1

/-- `bit_i(b)` (00_scope.md R9). -/
def digit (i b : Nat) : Bool := b / 2 ^ i % 2 == 1

/-- The exclusive or of `f b` over the list `S`; 0 for the empty one (00_scope.md R10). -/
def xorOver (S : List Nat) (f : Nat → Bool) : Bool := S.foldr (fun b acc => Bool.xor (f b) acc) false

/-- `C⟨p⟩`, the bit of `C` at position `p` (00_scope.md R8). -/
def bitAt (C : BitSeq) (p : Nat) : Bool := C.getD (seqIndex p) false

/-- `C⟨p⟩ <- b`. -/
def setBit (C : BitSeq) (p : Nat) (b : Bool) : BitSeq := C.set (seqIndex p) b

/-- `C⟨p⟩ <- ¬C⟨p⟩`. -/
def flipBit (C : BitSeq) (p : Nat) : BitSeq := setBit C p (!bitAt C p)

/-- `C` with the bits at the positions of `E` flipped, one after the other. -/
def flipAll (C : BitSeq) (E : List Nat) : BitSeq := E.foldl flipBit C

/-- The positions of `[1, m]` whose `i`-th binary digit is 1: what check bit `i` covers. -/
def covered (i m : Nat) : List Nat := (positions 1 m).filter (digit i)

/-- A sequence on an `L`-bit port: element `s` is port bit `L-1-s`, so the first element is the most significant
(10_state.md R23, `getMsbD_packSeq`). -/
def packSeq (L : Nat) (x : BitSeq) : BitVec L := BitVec.ofNat L (x.foldl (fun acc b => 2 * acc + b.toNat) 0)

/-- The sequence on a port: element `s` is port bit `L-1-s` (10_state.md R23). -/
def unpackSeq {L : Nat} (v : BitVec L) : BitSeq := (List.range L).map (fun s => v.getLsbD (L - 1 - s))

/-- `C⟨p⟩` of the codeword on an `N`-bit port: port bit `N-p` (10_state.md R23). -/
def portAt {N : Nat} (c : BitVec N) (p : Nat) : Bool := c.getLsbD (N - p)

/-- `zext_W(x)` (00_scope.md R11); every use has `x < 2^W`. -/
def zextTo (W x : Nat) : BitVec W := BitVec.ofNat W x

/-- The packed request word `{op, cw, data}` (30_encoding.md R70). -/
def packReq (K : Nat) (op : BitVec 2) (cw : BitVec (nBits K)) (data : BitVec K) : BitVec (wReq K) :=
  (op ++ cw) ++ data

end Sys2Proof.Machine
end

