-- ==== Sys2Proof/Machine/Flags.lean ====
section
/-! DEFINITION. Machine/Flags.lean: the values the flag bits of the response register take (10_state.md R27). The flags
are `rsp_valid`, `rsp_ovp_ok`, `rsp_reliable` and `rsp_status`; no request reads them. -/

namespace Sys2Proof.Machine

/-- The parity of the positions `[1, N-1]` (41_encode.md R134, 42_evaluate.md R164). -/
def protectedParity (K : Nat) (C : BitSeq) : Bool := xorOver (positions 1 (nBits K - 1)) (bitAt C)

/-- `overallParityOk` (42_evaluate.md R164): the parity of `[1, N-1]` equals the received bit at position `N`. -/
def overallParityOk (K : Nat) (C : BitSeq) : Bool := protectedParity K C == bitAt C (overallParityPosition K)

/-- `rsp_status = OK` (60_exceptions.md R266). -/
def statusOk : BitVec 2 := 0

/-- `rsp_status = ILLEGAL_OP` (60_exceptions.md R266). -/
def statusIllegalOp : BitVec 2 := 1

/-- The five decode classes (43_decode.md R193). -/
inductive Classification where
  | noError
  | singleErrorOverallParity
  | singleErrorCorrected
  | doubleErrorDetected
  | uncorrectableAnomaly
deriving DecidableEq, Repr

/-- The 3-bit code of a class (43_decode.md R193). Codes 5, 6 and 7 belong to none. -/
def classCode : Classification → BitVec 3
  | .noError => 0
  | .singleErrorOverallParity => 1
  | .singleErrorCorrected => 2
  | .doubleErrorDetected => 3
  | .uncorrectableAnomaly => 4

/-- `reliable` (43_decode.md R197): the three classes the source calls recovered. -/
def reliableClass : Classification → Bool
  | .noError => true
  | .singleErrorOverallParity => true
  | .singleErrorCorrected => true
  | .doubleErrorDetected => false
  | .uncorrectableAnomaly => false

end Sys2Proof.Machine
end

