-- ==== Sys2Proof/Machine/State.lean ====
section
/-! DEFINITION. Machine/State.lean: the input ports of one clock edge (10_state.md R22), the response register, which is
the whole architectural state of the block (R25), and the machine as one value: an elaborated instance, the inputs its
host presents at the coming edges, and the register. Widths follow `K` by their types, so no ill-formed register can be
written down. -/

namespace Sys2Proof.Machine

/-- What stands on the input ports at one rising edge of `clk` (10_state.md R22). The edge itself is the step. -/
structure PortIn (c : Config) where
  rst : Bool
  reqValid : Bool
  reqOp : BitVec 2
  reqData : BitVec c.K
  reqCw : BitVec (nBits c.K)
deriving DecidableEq, Repr

/-- The response register (10_state.md R25), field by field; each output `rsp_*` shows the field of its name. -/
structure Response (c : Config) where
  valid : Bool
  op : BitVec 2
  status : BitVec 2
  cw : BitVec (nBits c.K)
  data : BitVec c.K
  syndrome : BitVec (pSec c.K)
  ovpOk : Bool
  cls : BitVec 3
  reliable : Bool
  flipPos : BitVec (wPos c.K)
deriving DecidableEq, Repr

/-- One instance with its host. -/
structure State where
  /-- The elaboration parameter. It is CONFIGURATION, not architectural state (10_state.md R28): it stands here because
  one State type serves the instances of every `K`, and no step changes it.
  DESIGN CHOICE (notes/assumptions/1.md), safe. -/
  cfg : Config
  /-- The MODEL's own field, not the spec's: what the host will present at the coming edges, the next one first
  (10_state.md R21). DESIGN CHOICE (notes/assumptions/3.md), unsafe once the list has run out. -/
  inputs : List (PortIn cfg)
  /-- The response register, the block's only storage (10_state.md R25, R29). -/
  rsp : Response cfg
deriving DecidableEq, Repr

/-- The block has no traps, no exceptions and no stops of its own (60_exceptions.md R260), so no fault exists. Nobody raises
one. DEDUCED (notes/assumptions/11.md), safe. -/
inductive Fault
deriving DecidableEq, Repr

/-- Why `exec` gives an instruction no meaning. -/
inductive Refusal where
  /-- No meaning written yet; raised by no arm of this model's `exec`. Safe. -/
  | notModelled (mnemonic : String)
  /-- The operand of the instruction term has not the length `K` or `N`: the source's `WrongLength`
  (41_encode.md R131, 42_evaluate.md R161, 43_decode.md R191). Raised by the meanings of ENCODE, EVALUATE and DECODE on
  a term that no port can carry and no decoder yields (60_exceptions.md R262), so by no step. DEDUCED
  (notes/assumptions/5.md). Safe: the source refuses the same call. -/
  | wrongLength (actual expected : Nat)
deriving DecidableEq, Repr

/-- `RESET_VALUE` (70_reset_and_hazards.md R290): every field 0. -/
def Response.resetValue (c : Config) : Response c :=
  { valid := false, op := 0, status := 0, cw := 0, data := 0, syndrome := 0,
    ovpOk := false, cls := 0, reliable := false, flipPos := 0 }

/-- The instance `c` right after a reset edge, with nothing presented by its host yet (70_reset_and_hazards.md R290). -/
abbrev State.resetOf (c : Config) : State :=
  { cfg := c, inputs := [], rsp := Response.resetValue c }

/-- The machine right after reset. Every register value is the spec's (R290); the instance is `Config.default`,
DESIGN CHOICE (notes/assumptions/2.md), unsafe for a claim that takes it for every `K`. -/
def State.reset : State := State.resetOf Config.default

end Sys2Proof.Machine
end

