-- ==== Sys2Proof/Machine/Ops.lean ====
section
/-! DEFINITION. Machine/Ops.lean: the operations every meaning shares. They write the one register, at a reset edge, at
an accepting edge and at an edge with no request (10_state.md R26). The block has no memory (20_memory.md R50), so there
is no operation over one. TAKING AN EXCEPTION and RETURNING FROM ONE do not exist on this hardware: "The block has no trap
entry and no trap return", no state is saved and there is no vector (60_exceptions.md R271, R272), so no definition
stands for them. -/

namespace Sys2Proof.Machine

/-- The all-zero record `Z` each branch of the dispatch starts from: every field 0 and `status` OK (30_encoding.md R72). -/
def zeroResult (c : Config) : Response c :=
  { valid := false, op := 0, status := statusOk, cw := 0, data := 0, syndrome := 0,
    ovpOk := false, cls := 0, reliable := false, flipPos := 0 }

/-- An accepting edge: the whole register takes the request's result, `valid` is 1 and `op` the request's code
(10_state.md R26). -/
def acceptEdge (s : State) (op : BitVec 2) (r : Response s.cfg) : State :=
  { s with rsp := { r with valid := true, op := op } }

/-- A reset edge (10_state.md R26, 70_reset_and_hazards.md R290). -/
def resetEdge (s : State) : State := { s with rsp := Response.resetValue s.cfg }

/-- An edge with no request: `valid` is cleared and every other field holds (10_state.md R26). -/
def idleEdge (s : State) : State := { s with rsp := { s.rsp with valid := false } }

/-- A cycle with no request, as the assembler's `NOP` drives it (30_encoding.md R76). -/
def nopCycle (c : Config) : PortIn c := { rst := false, reqValid := false, reqOp := 0, reqData := 0, reqCw := 0 }

/-- A cycle with `rst = 1`, as the assembler's `RESET` drives it (30_encoding.md R76). -/
def resetCycle (c : Config) : PortIn c := { rst := true, reqValid := false, reqOp := 0, reqData := 0, reqCw := 0 }

/-- A cycle that presents a request (10_state.md R22). -/
def requestCycle (c : Config) (op : BitVec 2) (cw : BitVec (nBits c.K)) (data : BitVec c.K) : PortIn c :=
  { rst := false, reqValid := true, reqOp := op, reqData := data, reqCw := cw }

/-- What stands on the ports at the coming edge. A host that has nothing left to present leaves the cycle idle
(48_host_interface.md R241). DESIGN CHOICE (notes/assumptions/3.md), unsafe once the list has run out. -/
def portsNow (s : State) : PortIn s.cfg := s.inputs.headD (nopCycle s.cfg)

/-- The machine with the coming edge's inputs taken from the host. -/
abbrev takeInputs (s : State) : State := { s with inputs := s.inputs.tail }

/-- The machine with one more cycle presented before the others. -/
abbrev presentFirst (s : State) (p : PortIn s.cfg) : State := { s with inputs := p :: s.inputs }

/-- The machine before its first reset edge: the register is a DRAW, any value of each field's width
(70_reset_and_hazards.md R292, 93_implementation_defined.md I5). A claim about it holds for every `draw`.
DESIGN CHOICE (notes/assumptions/6.md): the draw is an argument; safe. -/
abbrev powerUp (c : Config) (draw : Response c) (inputs : List (PortIn c)) : State :=
  { cfg := c, inputs := inputs, rsp := draw }

end Sys2Proof.Machine
end

