-- ==== Sys2Proof/Machine/Evaluate.lean ====
section
/-! DEFINITION. Machine/Evaluate.lean: EVALUATE (42_evaluate.md), from a received codeword to its syndrome and overall
parity check. -/

namespace Sys2Proof.Machine

/-- `s_i` (42_evaluate.md R162): the XOR of the positions of `[1, N-1]` that check `i` covers, `2^i` included. -/
def syndromeBit (K i : Nat) (C : BitSeq) : Bool := xorOver (covered i (nBits K - 1)) (bitAt C)

/-- The syndrome (R163): `2^i` is added for every `i` whose `s_i` is 1. -/
def syndrome (K : Nat) (C : BitSeq) : Nat :=
  (List.range (pSec K)).foldl (fun s i => if syndromeBit K i C then s + 2 ^ i else s) 0

/-- `Evaluate(C)` (R165). -/
def hammingEvaluate (K : Nat) (C : BitSeq) : Nat × Bool := (syndrome K C, overallParityOk K C)

/-- The response record of an EVALUATE (42_evaluate.md R165): syndrome and parity check, every other field zero. -/
def evaluateResult (c : Config) (C : BitSeq) : Response c :=
  { zeroResult c with
    syndrome := zextTo _ (hammingEvaluate c.K C).1
    ovpOk := (hammingEvaluate c.K C).2 }

/-- EVALUATE (42_evaluate.md R165). The length check is the source's (R161); no request fails it. -/
def execEvaluate (cw : BitSeq) (s : State) : Host.Outcome State Fault Refusal :=
  if cw.length = nBits s.cfg.K then .next (acceptEdge s 1 (evaluateResult s.cfg cw))
  else .refused (.wrongLength cw.length (nBits s.cfg.K))

end Sys2Proof.Machine
end

