-- ==== Sys2Proof/Machine/Correct.lean ====
section
/-! DEFINITION. Machine/Correct.lean: DECODE (43_decode.md): classifier, single-bit corrector and data extractor. -/

namespace Sys2Proof.Machine

/-- The classification table (43_decode.md R193). The range test `s ≤ N-1` applies to the third row alone. -/
def classify (K s : Nat) (ok : Bool) : Classification :=
  if s = 0 then
    if ok then .noError else .singleErrorOverallParity
  else if ok then .doubleErrorDetected
  else if s ≤ nBits K - 1 then .singleErrorCorrected
  else .uncorrectableAnomaly

/-- The flip position of the table (R193): `N`, the syndrome, or 0 for none. -/
def flipPosition (K s : Nat) : Classification → Nat
  | .noError => 0
  | .singleErrorOverallParity => overallParityPosition K
  | .singleErrorCorrected => s
  | .doubleErrorDetected => 0
  | .uncorrectableAnomaly => 0

/-- The correction of the working copy (R194, R195): the bit at `flip` is inverted, or none where `flip` is 0. -/
def correct (C : BitSeq) (flip : Nat) : BitSeq := if flip = 0 then C else flipBit C flip

/-- Data extraction (R196): `data[j]` is the bit at `dataPositions[j]`. -/
def extractData (K : Nat) (W : BitSeq) : BitSeq := (dataPositions K).map (bitAt W)

/-- The DecodeOutcome in its hardware form (R199); the diagnosis string is not produced. -/
structure DecodeOutcome where
  data : BitSeq
  cls : Classification
  reliable : Bool
  syndrome : Nat
  overallParityOk : Bool
  flipPos : Nat
  working : BitSeq
deriving DecidableEq, Repr

/-- `Decode(C)` (R198). -/
def hammingDecode (K : Nat) (C : BitSeq) : DecodeOutcome :=
  let e := hammingEvaluate K C
  let cls := classify K e.1 e.2
  let flip := flipPosition K e.1 cls
  let W := correct C flip
  { data := extractData K W, cls := cls, reliable := reliableClass cls, syndrome := e.1,
    overallParityOk := e.2, flipPos := flip, working := W }

/-- The response record of a DECODE (43_decode.md R198). -/
def decodeResult (c : Config) (C : BitSeq) : Response c :=
  let o := hammingDecode c.K C
  { zeroResult c with
    cw := packSeq _ o.working
    data := packSeq _ o.data
    syndrome := zextTo _ o.syndrome
    ovpOk := o.overallParityOk
    cls := classCode o.cls
    reliable := o.reliable
    flipPos := zextTo _ o.flipPos }

/-- DECODE (43_decode.md R198). A double error and an anomaly are results, never stops (R200, R204). The length check is
the source's (R191); no request fails it. -/
def execDecode (cw : BitSeq) (s : State) : Host.Outcome State Fault Refusal :=
  if cw.length = nBits s.cfg.K then .next (acceptEdge s 2 (decodeResult s.cfg cw))
  else .refused (.wrongLength cw.length (nBits s.cfg.K))

end Sys2Proof.Machine
end

