-- ==== Sys2Proof/Machine/Encode.lean ====
section
/-! DEFINITION. Machine/Encode.lean: ENCODE (41_encode.md), from data to codeword. -/

namespace Sys2Proof.Machine

/-- Step 1 (41_encode.md R132): `C⟨dataPositions[j]⟩ <- D[j]` into the all-zero codeword. -/
def placeData (K : Nat) (D : BitSeq) : BitSeq :=
  ((dataPositions K).zip D).foldl (fun C pd => setBit C pd.1 pd.2) (List.replicate (nBits K) false)

/-- The value of check bit `i` (R133): the XOR of the covered positions of `[1, K+P_SEC]` but `2^i` itself. -/
def checkBit (K i : Nat) (C : BitSeq) : Bool :=
  xorOver ((covered i (K + pSec K)).filter (fun b => b != 2 ^ i)) (bitAt C)

/-- Step 2 (R133): the check bits, for `i` ascending. -/
def placeChecks (K : Nat) (C : BitSeq) : BitSeq :=
  (List.range (pSec K)).foldl (fun C i => setBit C (2 ^ i) (checkBit K i C)) C

/-- Step 3 (R134): the overall parity bit at position `N`. -/
def placeOverall (K : Nat) (C : BitSeq) : BitSeq :=
  setBit C (overallParityPosition K) (protectedParity K C)

/-- `Encode(D)` (R135). -/
def hammingEncode (K : Nat) (D : BitSeq) : BitSeq := placeOverall K (placeChecks K (placeData K D))

/-- The response record of an ENCODE (41_encode.md R135): the codeword, every other field zero. -/
def encodeResult (c : Config) (D : BitSeq) : Response c :=
  { zeroResult c with cw := packSeq _ (hammingEncode c.K D) }

/-- ENCODE (41_encode.md R135). The length check is the source's (R131); no request fails it. -/
def execEncode (data : BitSeq) (s : State) : Host.Outcome State Fault Refusal :=
  if data.length = s.cfg.K then .next (acceptEdge s 0 (encodeResult s.cfg data))
  else .refused (.wrongLength data.length s.cfg.K)

end Sys2Proof.Machine
end

