-- ==== Sys2Proof/Machine/Reserved.lean ====
section
/-! DEFINITION. Machine/Reserved.lean: the reserved op (60_exceptions.md R265). -/

namespace Sys2Proof.Machine

/-- The response record of the reserved op: ILLEGAL_OP, every data field zero (30_encoding.md R72). -/
def reservedResult (c : Config) : Response c := { zeroResult c with status := statusIllegalOp }

/-- RSVD (60_exceptions.md R265): it computes nothing, stops nothing and is reported in `rsp_status`. -/
def execRsvd (s : State) : Host.Outcome State Fault Refusal := .next (acceptEdge s 3 (reservedResult s.cfg))

end Sys2Proof.Machine
end

