-- ==== Sys2Proof/Syntax.lean ====
section
/-! DEFINITION. Syntax.lean: the requests of 30_encoding.md R71, one constructor per row of spec/opcode_table.json.
A constructor carries the operand its row reads, as a sequence (R73, R76); the request field a row does not read is
ignored (R71), so it is no part of the instruction. DEDUCED (notes/assumptions/4.md), safe. -/

namespace Sys2Proof

/-- A request the block can accept. -/
inductive Instr where
  /-- ENCODE, `op = 2'b00`: reads `K` data bits, `D[0]` first (41_encode.md R130). -/
  | encode (data : BitSeq)
  /-- EVALUATE, `op = 2'b01`: reads an `N`-bit received codeword, position 1 first (42_evaluate.md R160). -/
  | evaluate (cw : BitSeq)
  /-- DECODE, `op = 2'b10`: reads an `N`-bit received codeword, position 1 first (43_decode.md R190). -/
  | decode (cw : BitSeq)
  /-- RSVD, `op = 2'b11`: the reserved op, which reads nothing (60_exceptions.md R265). -/
  | rsvd
deriving DecidableEq, Repr

end Sys2Proof
end

