-- ==== Sys2Proof/Machine/Dispatch.lean ====
section
/-! DEFINITION. Machine/Dispatch.lean: one arm per request of 30_encoding.md R71. -/

namespace Sys2Proof.Machine

def exec (i : Instr) (s : State) : Host.Outcome State Fault Refusal :=
  match i with
  | .encode data => Sys2Proof.Machine.execEncode data s
  | .evaluate cw => Sys2Proof.Machine.execEvaluate cw s
  | .decode cw => Sys2Proof.Machine.execDecode cw s
  | .rsvd => Sys2Proof.Machine.execRsvd s

end Sys2Proof.Machine
end

