-- ==== Sys2Proof/WellFormed.lean ====
section
/-! DEFINITION. WellFormed.lean: the length checks an instruction passes on an instance of width `K`
(30_encoding.md R73). Every bit pattern of the right length is a legal operand (R74). -/

namespace Sys2Proof

/-- An ENCODE operand has exactly `K` bits, an EVALUATE or DECODE operand exactly `N` (30_encoding.md R73). -/
def wellFormed (K : Nat) : Instr → Bool
  | .encode data => data.length == K
  | .evaluate cw => cw.length == Machine.nBits K
  | .decode cw => cw.length == Machine.nBits K
  | .rsvd => true

end Sys2Proof
end

