-- ==== Sys2Proof/Decode.lean ====
section
/-! DEFINITION. Decode.lean: from request fields or REQ words to instructions, and back (30_encoding.md R70, R71).
The decoder is total: the four values of `op` each have a row, so the only word refused is one whose length is not
`W_REQ` (R75). -/

namespace Sys2Proof

/-- Why a string of bits is no REQ word. -/
inductive DecodeError where
  /-- The word does not have `W_REQ` bits, the one length of the format (30_encoding.md R75). R75 says nothing of another
  length; refusing it, under this name, is the model's. DESIGN CHOICE (notes/assumptions/14.md). Safe: nothing runs. -/
  | wrongWordLength (actual expected : Nat)
deriving DecidableEq, Repr

/-- The instruction of the three request fields (30_encoding.md R71 and the unpacking of R72). -/
def decodeReq (K : Nat) (op : BitVec 2) (cw : BitVec (Machine.nBits K)) (data : BitVec K) : Instr :=
  match op.toNat with
  | 0 => .encode (Machine.unpackSeq data)
  | 1 => .evaluate (Machine.unpackSeq cw)
  | 2 => .decode (Machine.unpackSeq cw)
  | _ => .rsvd

/-- The `op` field of a REQ word, bits `[N+K+1 : N+K]` (30_encoding.md R70). -/
def opField (K : Nat) (w : BitVec (Machine.wReq K)) : BitVec 2 := w.extractLsb' (Machine.nBits K + K) 2

/-- The `cw` field of a REQ word, bits `[N+K-1 : K]` (30_encoding.md R70). -/
def cwField (K : Nat) (w : BitVec (Machine.wReq K)) : BitVec (Machine.nBits K) := w.extractLsb' K (Machine.nBits K)

/-- The `data` field of a REQ word, bits `[K-1 : 0]` (30_encoding.md R70). -/
def dataField (K : Nat) (w : BitVec (Machine.wReq K)) : BitVec K := w.extractLsb' 0 K

/-- The instruction of a packed REQ word. -/
def decodeWord (K : Nat) (w : BitVec (Machine.wReq K)) : Instr :=
  decodeReq K (opField K w) (cwField K w) (dataField K w)

/-- The instruction of any string of bits, most significant first, or the reason it is no REQ word
(30_encoding.md R75). DESIGN CHOICE (notes/assumptions/14.md), safe. -/
def decodeBits (K : Nat) (bits : BitSeq) : Except DecodeError Instr :=
  if bits.length = Machine.wReq K then .ok (decodeWord K (Machine.packSeq (Machine.wReq K) bits))
  else .error (.wrongWordLength bits.length (Machine.wReq K))

/-- The instruction the decoder reads from a row's word, numbered as spec/opcode_table.json numbers it: the table gives
each row two bits, `[1:0]`, and says they are the `op` field; the operand fields have no bits there and are 0.
A word with fewer than two bits has no `op` field. The instance is `Config.default`. DESIGN CHOICE
(notes/assumptions/7.md), safe. -/
def decodeTableWord (nbits w : Nat) : Option Instr :=
  if nbits < 2 then none
  else some (decodeWord Config.default.K (Machine.packReq Config.default.K (BitVec.ofNat 2 w) 0 0))

/-! ## The encoder -/

/-- The `op` code of an instruction (30_encoding.md R71). -/
def opCode : Instr → BitVec 2
  | .encode _ => 0
  | .evaluate _ => 1
  | .decode _ => 2
  | .rsvd => 3

/-- The codeword operand an instruction drives on `req_cw`; 0 where its row reads none (30_encoding.md R76). -/
def cwOperand (K : Nat) : Instr → BitVec (Machine.nBits K)
  | .encode _ => 0
  | .evaluate cw => Machine.packSeq _ cw
  | .decode cw => Machine.packSeq _ cw
  | .rsvd => 0

/-- The data operand an instruction drives on `req_data`; 0 where its row reads none (30_encoding.md R76). -/
def dataOperand (K : Nat) : Instr → BitVec K
  | .encode data => Machine.packSeq _ data
  | .evaluate _ => 0
  | .decode _ => 0
  | .rsvd => 0

/-- The REQ word of an instruction, as a listing gives it (30_encoding.md R70, R77). -/
def encodeWord (K : Nat) (i : Instr) : BitVec (Machine.wReq K) :=
  Machine.packReq K (opCode i) (cwOperand K i) (dataOperand K i)

/-- The same word as a string of bits, most significant first. -/
def encodeBits (K : Nat) (i : Instr) : BitSeq := Machine.unpackSeq (encodeWord K i)

end Sys2Proof
end

