-- ==== Sys2Proof/Machine/Edge.lean ====
section
/-! DEFINITION. Machine/Edge.lean: what one rising edge of `clk` does with the input ports (10_state.md R26). -/

namespace Sys2Proof.Machine

/-- The instruction on the request ports (30_encoding.md R71). -/
def requested (c : Config) (p : PortIn c) : Instr := decodeReq c.K p.reqOp p.reqCw p.reqData

/-- The update rule of the cycle step (10_state.md R26). `rst = 1` wins over `req_valid = 1`, and a request presented in a
reset cycle is lost. `accepted` is the outcome of running the presented request. -/
def clockEdge (s : State) (p : PortIn s.cfg) (accepted : Host.Outcome State Fault Refusal) :
    Host.Outcome State Fault Refusal :=
  if p.rst then .next (resetEdge s)
  else if p.reqValid then accepted
  else .next (idleEdge s)

/-- `s` with the request of an opcode-table word presented at the very next edge: `op` is bits `[1:0]` of `w`, both
operand fields are 0. DESIGN CHOICE (notes/assumptions/7.md), safe. -/
def presentTableWord (s : State) (w : Nat) : State :=
  presentFirst s (requestCycle s.cfg (BitVec.ofNat 2 w) 0 0)

end Sys2Proof.Machine
end

