-- ==== Sys2Proof/Machine/Step.lean ====
section
/-! DEFINITION. Machine/Step.lean: the cycle step (10_state.md R26), one rising edge of `clk`. -/

namespace Sys2Proof.Machine

/-- One step: the host's next inputs reach the ports and the clock rises. Inputs are stable at the edge, and time between
edges is not modelled (48_host_interface.md R241, 70_reset_and_hazards.md R298). DEDUCED (notes/assumptions/10.md), safe. -/
def step (s : State) : Host.Outcome State Fault Refusal :=
  clockEdge (takeInputs s) (portsNow s) (exec (requested s.cfg (portsNow s)) (takeInputs s))

/-- `s` with the request of the table's word presented at the very next edge, where `step` takes its next request. -/
def State.withFetchWord (s : State) (_nbits w : Nat) : State := presentTableWord s w

end Sys2Proof.Machine
end

