-- ==== Sys2Proof/Machine/HostSide.lean ====
section
/-! DEFINITION. Machine/HostSide.lean: the host adapter and the Error Injector (48_host_interface.md). Neither is part of
the hardware (00_scope.md R4); both stand on the host side of the boundary, as operations that produce request operands.
A refused operation answers its `Failure` and presents nothing (60_exceptions.md R268). -/

namespace Sys2Proof.Machine

/-- The numbers of 60_exceptions.md R267. -/
def failureCode : Failure → Nat
  | .invalidWidth _ => 1
  | .wrongLength _ _ => 2
  | .invalidSymbol _ => 3
  | .positionOutOfRange _ => 4
  | .duplicatePosition _ => 5
  | .incompletePositionPair _ => 6
  | .illegalOp => 7

/-! ## The host adapter -/

/-- A character of the interchange format that is 0 or 1 (48_host_interface.md R230). -/
def isBinary (ch : Char) : Bool := ch == '0' || ch == '1'

/-- A sequence of expected length `L` from the interchange format: the length check first, then the first bad symbol
(48_host_interface.md R232). -/
def seqOfChars (L : Nat) (x : List Char) : Except Failure BitSeq :=
  if x.length ≠ L then .error (.wrongLength x.length L)
  else if x.all isBinary then .ok (x.map (fun ch => ch == '1'))
  else .error (.invalidSymbol (x.findIdx (fun ch => !isBinary ch)))

/-- A sequence in the interchange format (48_host_interface.md R230). -/
def charsOfSeq (x : BitSeq) : List Char := x.map (fun b => if b then '1' else '0')

/-- `to_port(x, L)` (48_host_interface.md R232). -/
def toPort (L : Nat) (x : List Char) : Except Failure (BitVec L) := (seqOfChars L x).map (packSeq L)

/-- `from_port(v, L)` (48_host_interface.md R233). -/
def fromPort {L : Nat} (v : BitVec L) : BitSeq := unpackSeq v

/-- The cycle that presents an ENCODE of the data string `x`, or the refusal (48_host_interface.md R241). -/
def encodeCycle (c : Config) (x : List Char) : Except Failure (PortIn c) :=
  (toPort c.K x).map (fun v => requestCycle c 0 0 v)

/-- The cycle that presents an EVALUATE of the codeword string `x`, or the refusal. -/
def evaluateCycle (c : Config) (x : List Char) : Except Failure (PortIn c) :=
  (toPort (nBits c.K) x).map (fun v => requestCycle c 1 v 0)

/-- The cycle that presents a DECODE of the codeword string `x`, or the refusal. -/
def decodeCycle (c : Config) (x : List Char) : Except Failure (PortIn c) :=
  (toPort (nBits c.K) x).map (fun v => requestCycle c 2 v 0)

/-- The cycle that presents the reserved op. -/
def reservedCycle (c : Config) : PortIn c := requestCycle c 3 0 0

/-- The host adds a cycle to what it will present. A refused operation presents nothing and leaves the block as it was
(60_exceptions.md R262, R268). -/
def submit (s : State) (r : Except Failure (PortIn s.cfg)) : State :=
  match r with
  | .ok p => { s with inputs := s.inputs ++ [p] }
  | .error _ => s

/-! ## The error injector -/

/-- A draw of one position of `[1, N]` from the caller's randomness source (48_host_interface.md R235, R240). Claims
quantify over it; its distribution is not modelled (93_implementation_defined.md I6). DESIGN CHOICE
(notes/assumptions/8.md), safe. -/
structure PositionDraw (K : Nat) where
  p : Nat
  one_le : 1 ≤ p
  le_n : p ≤ nBits K
deriving DecidableEq, Repr

/-- A draw of two distinct positions of `[1, N]` (48_host_interface.md R237). -/
structure PairDraw (K : Nat) where
  p1 : Nat
  p2 : Nat
  one_le1 : 1 ≤ p1
  le_n1 : p1 ≤ nBits K
  one_le2 : 1 ≤ p2
  le_n2 : p2 ≤ nBits K
  distinct : p1 ≠ p2
deriving DecidableEq, Repr

/-- An explicit position inside `[1, N]`. -/
def inRange (K : Nat) (p : Int) : Bool := decide (1 ≤ p) && decide (p ≤ (nBits K : Int))

/-- `injectSingle` on a codeword sequence (48_host_interface.md R234, R235). The input is a value and stays as it is
(R239). -/
def injectSingleSeq (K : Nat) (C : BitSeq) (position : Option Int) (draw : PositionDraw K) :
    Except Failure (BitSeq × Nat) :=
  match position with
  | none => .ok (flipBit C draw.p, draw.p)
  | some p => if inRange K p then .ok (flipBit C p.toNat, p.toNat) else .error (.positionOutOfRange [p])

/-- `injectDouble` on a codeword sequence (48_host_interface.md R236 to R238): range before distinctness, and a single
explicit position, whatever its value, is an incomplete pair. -/
def injectDoubleSeq (K : Nat) (C : BitSeq) (pos1 pos2 : Option Int) (draw : PairDraw K) :
    Except Failure (BitSeq × Nat × Nat) :=
  match pos1, pos2 with
  | none, none => .ok (flipBit (flipBit C draw.p1) draw.p2, draw.p1, draw.p2)
  | some p, none => .error (.incompletePositionPair p)
  | none, some p => .error (.incompletePositionPair p)
  | some p1, some p2 =>
    if !(inRange K p1 && inRange K p2) then .error (.positionOutOfRange [p1, p2])
    else if p1 = p2 then .error (.duplicatePosition p1)
    else .ok (flipBit (flipBit C p1.toNat) p2.toNat, p1.toNat, p2.toNat)

/-- `injectSingle`, with the codeword from the interchange format: the adapter's checks come before the position check
(48_host_interface.md R239, 60_exceptions.md R270). -/
def injectSingle (K : Nat) (x : List Char) (position : Option Int) (draw : PositionDraw K) :
    Except Failure (BitSeq × Nat) :=
  match seqOfChars (nBits K) x with
  | .error f => .error f
  | .ok C => injectSingleSeq K C position draw

/-- `injectDouble`, with the codeword from the interchange format (48_host_interface.md R239, 60_exceptions.md R270). Both
of the adapter's checks come first, so a bad symbol is reported before an incomplete pair: R239 says so of the length, and
no rule orders `InvalidSymbol` against `IncompletePositionPair`. DEDUCED (notes/assumptions/15.md), safe. -/
def injectDouble (K : Nat) (x : List Char) (pos1 pos2 : Option Int) (draw : PairDraw K) :
    Except Failure (BitSeq × Nat × Nat) :=
  match seqOfChars (nBits K) x with
  | .error f => .error f
  | .ok C => injectDoubleSeq K C pos1 pos2 draw

end Sys2Proof.Machine
end

