-- ==== Sys2Proof/Machine/Assembler.lean ====
section
/-! DEFINITION. Machine/Assembler.lean: the text form of request programs and their listings (30_encoding.md R76, R77).
It is notation of the host's side: the block sees the cycles it assembles to, and nothing of the text. -/

namespace Sys2Proof.Machine

/-- Why a text is no request program. `host` carries the failures R76 names; the others are the model's own names for
text outside R76's grammar. DESIGN CHOICE (notes/assumptions/9.md), safe. -/
inductive AsmError where
  /-- An operand the host adapter refuses, or a `.k` below 1. Safe: nothing is assembled. -/
  | host (f : Failure)
  /-- The text does not begin with a `.k <K>` line, or its `<K>` is no numeral. Safe: nothing is assembled. -/
  | noWidth
  /-- A line that is none of the six forms. Safe: nothing is assembled. -/
  | unknownLine
  /-- `0x` with no digit after it, or with one that is not hexadecimal. Safe: nothing is assembled. -/
  | badHex
  /-- A hex operand that is not below `2^K` or `2^N`. Safe: nothing is assembled. -/
  | hexOutOfRange (value bound : Nat)
deriving DecidableEq, Repr

/-- The pieces of a text between characters that `sep` marks; empty pieces are kept. -/
def splitOnChar (sep : Char → Bool) (text : List Char) : List (List Char) :=
  text.foldr (fun ch acc =>
    if sep ch then [] :: acc
    else match acc with
      | [] => [[ch]]
      | piece :: rest => (ch :: piece) :: rest) [[]]

/-- A space, a tab or a carriage return. -/
def isBlank (ch : Char) : Bool := ch == ' ' || ch == '\t' || ch == '\r'

/-- The words of a line, its `;` comment left out (30_encoding.md R76). -/
def wordsOf (line : List Char) : List (List Char) :=
  (splitOnChar isBlank (line.takeWhile (fun ch => ch != ';'))).filter (fun w => !w.isEmpty)

/-- An ASCII letter in capitals: mnemonics are case-insensitive (30_encoding.md R76). -/
def upperChar (ch : Char) : Char := if 'a' ≤ ch ∧ ch ≤ 'z' then Char.ofNat (ch.toNat - 32) else ch

/-- The value of a hexadecimal digit. -/
def hexValue (ch : Char) : Option Nat :=
  if '0' ≤ ch ∧ ch ≤ '9' then some (ch.toNat - 48)
  else if 'A' ≤ upperChar ch ∧ upperChar ch ≤ 'F' then some ((upperChar ch).toNat - 55)
  else none

/-- The value of a string of digits in a base, the first digit the most significant; nothing for the empty string. -/
def digitsValue (base : Nat) (value : Char → Option Nat) (ds : List Char) : Option Nat :=
  if ds.isEmpty then none
  else ds.foldl (fun acc ch => acc.bind (fun a => (value ch).map (fun d => base * a + d))) (some 0)

/-- The value of a decimal digit. -/
def decimalValue (ch : Char) : Option Nat := if '0' ≤ ch ∧ ch ≤ '9' then some (ch.toNat - 48) else none

/-- An operand of `L` bits: a binary string with the first element first, or `0x` and a port value (30_encoding.md R76). -/
def parseOperand (L : Nat) (x : List Char) : Except AsmError (BitVec L) :=
  match x with
  | '0' :: 'x' :: ds =>
    match digitsValue 16 hexValue ds with
    | none => .error .badHex
    | some v => if v < 2 ^ L then .ok (BitVec.ofNat L v) else .error (.hexOutOfRange v (2 ^ L))
  | _ => (toPort L x).mapError .host

/-- The mnemonics of R76's table. -/
def isWord (w mnemonic : List Char) : Bool := w.map upperChar == mnemonic

/-- The cycle of one line (30_encoding.md R76's table), from its words. -/
def assembleLine (c : Config) (ws : List (List Char)) : Except AsmError (PortIn c) :=
  match ws with
  | [m] =>
    if isWord m ['R', 'S', 'V', 'D'] then .ok (reservedCycle c)
    else if isWord m ['N', 'O', 'P'] then .ok (nopCycle c)
    else if isWord m ['R', 'E', 'S', 'E', 'T'] then .ok (resetCycle c)
    else .error .unknownLine
  | [m, x] =>
    if isWord m ['E', 'N', 'C', 'O', 'D', 'E'] then
      (parseOperand c.K x).map (fun v => requestCycle c 0 0 v)
    else if isWord m ['E', 'V', 'A', 'L', 'U', 'A', 'T', 'E'] then
      (parseOperand (nBits c.K) x).map (fun v => requestCycle c 1 v 0)
    else if isWord m ['D', 'E', 'C', 'O', 'D', 'E'] then
      (parseOperand (nBits c.K) x).map (fun v => requestCycle c 2 v 0)
    else .error .unknownLine
  | _ => .error .unknownLine

/-- The words of the line that presents an instruction, its operand as a binary string (30_encoding.md R76). -/
def lineOf : Instr → List (List Char)
  | .encode data => [['E', 'N', 'C', 'O', 'D', 'E'], charsOfSeq data]
  | .evaluate cw => [['E', 'V', 'A', 'L', 'U', 'A', 'T', 'E'], charsOfSeq cw]
  | .decode cw => [['D', 'E', 'C', 'O', 'D', 'E'], charsOfSeq cw]
  | .rsvd => [['R', 'S', 'V', 'D']]

/-- The instance and the cycles of an assembled program. -/
structure AsmProgram where
  cfg : Config
  cycles : List (PortIn cfg)
deriving DecidableEq, Repr

/-- The value of a decimal numeral, with `-` before the digits of a negative one. R76 gives no form for the `<K>` of a
`.k` line: that it is this numeral, and no other sign or base, is the model's choice. DESIGN CHOICE
(notes/assumptions/9.md), safe. -/
def numeralValue (text : List Char) : Option Int :=
  match text with
  | '-' :: ds => (digitsValue 10 decimalValue ds).map (fun n => -(n : Int))
  | ds => (digitsValue 10 decimalValue ds).map (fun n => (n : Int))

/-- The instance of a `.k <K>` line: every width below 1, 0 and the negative ones alike, is refused with `InvalidWidth`
(40_parameters.md R100, 60_exceptions.md R261). A text that is no numeral is refused with `noWidth`, a name of the model's
own. DESIGN CHOICE (notes/assumptions/9.md), safe. -/
def parseWidth (text : List Char) : Except AsmError Config :=
  match numeralValue text with
  | none => .error .noWidth
  | some k => if h : 1 ≤ k.toNat then .ok { K := k.toNat, one_le_K := h } else .error (.host (.invalidWidth k))

/-- The cycles of the lines, in order, or the first refusal. -/
def assembleLines (c : Config) : List (List (List Char)) → Except AsmError (List (PortIn c))
  | [] => .ok []
  | ws :: rest =>
    match assembleLine c ws with
    | .error e => .error e
    | .ok p => (assembleLines c rest).map (fun ps => p :: ps)

/-- A request program (30_encoding.md R76): a `.k` line at the top, then one line per clock cycle. Lines that are empty
or a comment alone are no cycle. The directive is written with a small `k`: R76 makes mnemonics case-insensitive and says
nothing of the directive's letter. DESIGN CHOICE (notes/assumptions/9.md), safe. -/
def assemble (text : List Char) : Except AsmError AsmProgram :=
  match ((splitOnChar (fun ch => ch == '\n') text).map wordsOf).filter (fun ws => !ws.isEmpty) with
  | [directive, width] :: rest =>
    if directive = ['.', 'k'] then
      match parseWidth width with
      | .error e => .error e
      | .ok c => (assembleLines c rest).map (fun ps => { cfg := c, cycles := ps })
    else .error .noWidth
  | _ => .error .noWidth

/-! ## The listing -/

/-- The REQ word of a listing row, the word that is driven whenever `req_valid` is 1, also beside `rst` (PROG-2 cycle 5 of
95_test_vectors.md); none (written `-`) where no request is presented, as in the cycles of `NOP` and `RESET`
(30_encoding.md R77). -/
def listingWord (c : Config) (p : PortIn c) : Option (BitVec (wReq c.K)) :=
  if p.reqValid then some (packReq c.K p.reqOp p.reqCw p.reqData) else none

/-- A hexadecimal digit, in capitals. -/
def hexChar (d : Nat) : Char := if d < 10 then Char.ofNat (48 + d) else Char.ofNat (55 + d)

/-- A word in hex, in capitals and with the digits its length needs, as the listings of 95_test_vectors.md write it
(30_encoding.md R77). -/
def hexWord {W : Nat} (v : BitVec W) : List Char :=
  '0' :: 'x' :: (List.range ((W + 3) / 4)).map (fun i => hexChar (v.toNat / 16 ^ ((W + 3) / 4 - 1 - i) % 16))

/-- A listing row (30_encoding.md R77): `rst`, `req_valid` and the REQ word in hex, or `-`. -/
def listingRow (c : Config) (p : PortIn c) : Bool × Bool × List Char :=
  (p.rst, p.reqValid, (listingWord c p).elim ['-'] hexWord)

end Sys2Proof.Machine
end

