-- ==== Sys2Proof/Machine/Instances.lean ====
section
/-! DEFINITION. Machine/Instances.lean: several instances side by side (10_state.md R31, 60_exceptions.md R276). Each is a
block of its own with its own ports and register; they may differ in `K` and share nothing. -/

namespace Sys2Proof.Machine

/-- A clock edge of the `n`-th block of a collection; the others have no part in it (10_state.md R31). DEDUCED
(notes/assumptions/12.md), safe. -/
def stepInstance (blocks : List State) (n : Nat) : List State :=
  match blocks[n]? with
  | none => blocks
  | some s =>
    match step s with
    | .next s' => blocks.set n s'
    | .fault _ => blocks
    | .refused _ => blocks

end Sys2Proof.Machine
end

