-- ==== Sys2Proof/Machine/Outputs.lean ====
section
/-! DEFINITION. Machine/Outputs.lean: the output ports (10_state.md R22). The `cfg_*` outputs are the constants of the
bit-position calculator (R24), functions of the instance alone; each `rsp_*` output is driven continuously by the register
field of its name. Reading an output has no side effect (20_memory.md R54). -/

namespace Sys2Proof.Machine

/-- The `N`-bit mask whose bit `N-p` is 1 exactly for the positions `p` of `S` (10_state.md R24). -/
def positionMask (K : Nat) (S : List Nat) : BitVec (nBits K) :=
  packSeq _ ((positions 1 (nBits K)).map (fun p => S.contains p))

/-- `cfg_k` (10_state.md R24). -/
def cfgK (c : Config) : BitVec (wPos c.K) := zextTo _ c.K

/-- `cfg_p_sec` (10_state.md R24). -/
def cfgPSec (c : Config) : BitVec (wPos c.K) := zextTo _ (pSec c.K)

/-- `cfg_n` (10_state.md R24). -/
def cfgN (c : Config) : BitVec (wPos c.K) := zextTo _ (nBits c.K)

/-- `cfg_sec_mask` (10_state.md R24). -/
def cfgSecMask (c : Config) : BitVec (nBits c.K) := positionMask c.K (secParityPositions c.K)

/-- `cfg_data_mask` (10_state.md R24). -/
def cfgDataMask (c : Config) : BitVec (nBits c.K) := positionMask c.K (dataPositions c.K)

/-- `cfg_ovp_mask` (10_state.md R24). -/
def cfgOvpMask (c : Config) : BitVec (nBits c.K) := positionMask c.K [overallParityPosition c.K]

/-- Everything the host can see of an instance (10_state.md R22): the constants and the register. -/
structure Outputs (c : Config) where
  cfgK : BitVec (wPos c.K)
  cfgPSec : BitVec (wPos c.K)
  cfgN : BitVec (wPos c.K)
  cfgSecMask : BitVec (nBits c.K)
  cfgDataMask : BitVec (nBits c.K)
  cfgOvpMask : BitVec (nBits c.K)
  rsp : Response c
deriving DecidableEq, Repr

/-- The output ports of a state. -/
def outputs (s : State) : Outputs s.cfg :=
  { cfgK := cfgK s.cfg, cfgPSec := cfgPSec s.cfg, cfgN := cfgN s.cfg, cfgSecMask := cfgSecMask s.cfg,
    cfgDataMask := cfgDataMask s.cfg, cfgOvpMask := cfgOvpMask s.cfg, rsp := s.rsp }

end Sys2Proof.Machine
end

