-- ==== Sys2Proof/Safety.lean ====
section
/-! DEFINITION. Safety.lean: what claims call a codeword, a legal response register, and a block whose register is legal.
A power-up register need not be legal (70_reset_and_hazards.md R292); a reset edge makes it so, and every step keeps it. -/

namespace Sys2Proof.Machine

/-- A word the evaluator finds consistent: syndrome 0 and overall parity right (41_encode.md R136). -/
def isCodeword (K : Nat) (C : BitSeq) : Prop := hammingEvaluate K C = (0, true)

/-- The values the register can hold once a reset edge has been seen: `status` is OK or ILLEGAL_OP and the latter exactly
for the reserved op (60_exceptions.md R265, R266); `class` is one of the five codes, and a class, a flip position, a data
word or a reliable mark stands only beside a DECODE (10_state.md R25); a DECODE's class, reliability and flip position are
those its syndrome and parity check select (43_decode.md R193, R194, R197). -/
structure Response.Legal {c : Config} (r : Response c) : Prop where
  status_iff : r.status = if r.op = 3 then statusIllegalOp else statusOk
  not_decode : r.op ≠ 2 → r.data = 0 ∧ r.cls = 0 ∧ r.reliable = false ∧ r.flipPos = 0
  not_checked : r.op = 0 ∨ r.op = 3 → r.syndrome = 0 ∧ r.ovpOk = false
  no_codeword : r.op = 1 ∨ r.op = 3 → r.cw = 0
  class_selected : r.op = 2 → r.cls = classCode (classify c.K r.syndrome.toNat r.ovpOk)
  reliable_selected : r.op = 2 → r.reliable = reliableClass (classify c.K r.syndrome.toNat r.ovpOk)
  flip_selected : r.op = 2 →
    r.flipPos.toNat = flipPosition c.K r.syndrome.toNat (classify c.K r.syndrome.toNat r.ovpOk)

/-- The invariant of the block: its register is legal. -/
def State.Legal (s : State) : Prop := s.rsp.Legal

/-- The codeword an ENCODE reports, and the working copy of a DECODE marked reliable, are codewords
(41_encode.md R136, 43_decode.md R194). -/
def State.ReportsCodeword (s : State) : Prop :=
  s.rsp.op = 0 ∨ (s.rsp.op = 2 ∧ s.rsp.reliable = true) → isCodeword s.cfg.K (unpackSeq s.rsp.cw)

/-- `k` rising edges, stopping where one stops. -/
def runEdges : Nat → State → Host.Outcome State Fault Refusal
  | 0, s => .next s
  | k + 1, s =>
    match step s with
    | .next s' => runEdges k s'
    | .fault f => .fault f
    | .refused r => .refused r

end Sys2Proof.Machine
end

