-- ==== Sys2Proof/Certificates/Slice0/Obligations.lean ====
section
/-! DEFINITION. Certificates/Slice0/Obligations.lean: the statements for the provers. Each docstring names the rules of
spec/ the statement formalises; "(the spec's inference from …)" says that the spec itself marks the rule as derived.
Where a statement answers `exec … = .next { s with rsp := … }` or `step … = .next { cfg := c, inputs := ps, rsp := … }`,
the equation is also the FRAME: the instance and the inputs still to come are as they were, and every field of the
register is the one written down. -/

open Sys2Proof Sys2Proof.Machine

/-! ## The bit-position calculator (40_parameters.md) -/

/-- R101, R102, R103: `P_SEC` is the least `p` with `2^p ≥ K + p + 1`, `P_DED = P_SEC + 1` and `N = K + P_DED`. -/
def Obligations.CheckBitCountIsLeast : Prop :=
  ∀ K : Nat, K + pSec K + 1 ≤ 2 ^ pSec K ∧ (∀ p < pSec K, ¬ K + p + 1 ≤ 2 ^ p) ∧
    pDed K = pSec K + 1 ∧ nBits K = K + pDed K

/-- R104, R105, R106, R107: the check positions are `2^0, 2^1, …` inside `[1, K+P_SEC]`; the data positions are the `K`
others, ascending, none of them a power of two; the two sets are disjoint and fill `[1, K+P_SEC]`; `N` is in neither. -/
def Obligations.PositionsPartition : Prop :=
  ∀ K : Nat,
    ((secParityPositions K).length = pSec K ∧ ∀ i < pSec K, (secParityPositions K)[i]? = some (2 ^ i)) ∧
    (∀ p ∈ secParityPositions K, 1 ≤ p ∧ p ≤ K + pSec K) ∧
    ((dataPositions K).length = K ∧ (dataPositions K).Pairwise (· < ·)) ∧
    (∀ p, p ∈ dataPositions K ↔ (1 ≤ p ∧ p ≤ K + pSec K) ∧ ¬ ∃ i, p = 2 ^ i) ∧
    (∀ p, ¬ (p ∈ secParityPositions K ∧ p ∈ dataPositions K)) ∧
    (∀ p, (p ∈ secParityPositions K ∨ p ∈ dataPositions K) ↔ 1 ≤ p ∧ p ≤ K + pSec K) ∧
    (overallParityPosition K = nBits K ∧ nBits K ∉ secParityPositions K ∧ nBits K ∉ dataPositions K)

/-- R100, R261, R108: `derive` refuses every width below 1 with `InvalidWidth`, code 1, and answers the record of every
other width. -/
def Obligations.DeriveRefusesOnlyWidthsBelowOne : Prop :=
  (∀ k : Int, k < 1 → derive k = .error (.invalidWidth k) ∧ failureCode (.invalidWidth k) = 1) ∧
  (∀ K : Nat, 1 ≤ K → ∃ p : CodeParameters, derive (K : Int) = .ok p ∧
    p.K = K ∧ p.pSec = pSec K ∧ p.pDed = p.pSec + 1 ∧ p.n = K + p.pDed ∧
    p.secParityPositions = (List.range p.pSec).map (fun i => 2 ^ i) ∧
    p.dataPositions = (positions 1 (K + p.pSec)).filter (fun b => !p.secParityPositions.contains b) ∧
    p.overallParityPosition = p.n)

/-- R111 (the spec's inference from R101): `P_SEC = p` exactly when `2^(p-1) - p + 1 ≤ K ≤ 2^p - p - 1` (written without
subtraction), and the rows of its table. -/
def Obligations.CheckBitCountByRange : Prop :=
  (∀ K p : Nat, 1 ≤ K → 2 ≤ p → (pSec K = p ↔ 2 ^ (p - 1) + 1 ≤ K + p ∧ K + p + 1 ≤ 2 ^ p)) ∧
  (pSec 1 = 2 ∧ nBits 1 = 4) ∧
  (∀ K, 2 ≤ K → K ≤ 4 → pSec K = 3 ∧ nBits K = K + 4) ∧
  (∀ K, 5 ≤ K → K ≤ 11 → pSec K = 4 ∧ nBits K = K + 5) ∧
  (∀ K, 12 ≤ K → K ≤ 26 → pSec K = 5 ∧ nBits K = K + 6) ∧
  (∀ K, 27 ≤ K → K ≤ 57 → pSec K = 6 ∧ nBits K = K + 7) ∧
  (∀ K, 58 ≤ K → K ≤ 120 → pSec K = 7 ∧ nBits K = K + 8) ∧
  (∀ K, 121 ≤ K → K ≤ 247 → pSec K = 8 ∧ nBits K = K + 9)

/-- R112 (the spec's inference from R101): (a) at least two check bits; (b) the last one lies in `[1, K+P_SEC]`; (c)
every protected position has a distinct nonzero `P_SEC`-bit pattern; (d) the headroom is not negative, and is 0 exactly
for `K = 2^P_SEC - P_SEC - 1`. -/
def Obligations.CodeSizeBounds : Prop :=
  (∀ K : Nat, 1 ≤ K →
    2 ≤ pSec K ∧
    (2 ^ (pSec K - 1) ≤ K + pSec K - 1 ∧ ∀ p ∈ secParityPositions K, 1 ≤ p ∧ p ≤ K + pSec K) ∧
    nBits K - 1 ≤ 2 ^ pSec K - 1 ∧
    (∀ p, 1 ≤ p → p ≤ nBits K - 1 → zextTo (pSec K) p ≠ 0 ∧
      ∀ q, 1 ≤ q → q ≤ nBits K - 1 → zextTo (pSec K) p = zextTo (pSec K) q → p = q) ∧
    (nBits K ≤ 2 ^ pSec K ∧ headroom K = 2 ^ pSec K - nBits K ∧
      (headroom K = 0 ↔ K = 2 ^ pSec K - pSec K - 1))) ∧
  (∀ K, 1 ≤ K → K ≤ 247 → (headroom K = 0 ↔ K ∈ [1, 4, 11, 26, 57, 120, 247])) ∧
  (headroom 8 = 3 ∧ nBits 8 = 13)

/-- R109, R110 (the spec's inference from R104 to R107): a position of `[1, N]` has exactly the role its place gives it,
a position outside has none, and the data index is the position less one and less the number of check positions below
it. The last clause is R110's list for `K = 8`. -/
def Obligations.PositionRoles : Prop :=
  (∀ K p : Nat,
    (∀ i, role K p = some (.sec i) ↔ i < pSec K ∧ p = 2 ^ i) ∧
    (∀ j, role K p = some (.data j) ↔ (dataPositions K)[j]? = some p) ∧
    (role K p = some .ovp ↔ p = nBits K) ∧
    (role K p = none ↔ p < 1 ∨ nBits K < p) ∧
    (∀ j, role K p = some (.data j) →
      j = p - 1 - ((List.range (pSec K)).filter (fun i => decide (2 ^ i < p))).length)) ∧
  (role 8 3 = some (.data 0) ∧ role 8 5 = some (.data 1) ∧ role 8 6 = some (.data 2) ∧ role 8 7 = some (.data 3) ∧
    role 8 9 = some (.data 4) ∧ role 8 10 = some (.data 5) ∧ role 8 11 = some (.data 6) ∧ role 8 12 = some (.data 7))

/-- R24 (the partition of the masks is the spec's inference from R107): the constant outputs carry `K`, `P_SEC` and `N`
in `W_POS` bits; bit `N-p` of each mask is 1 exactly at the positions of its set; the masks are pairwise disjoint and
together all ones. They are functions of the instance, which neither a reset edge nor a request changes. The last
clauses are the rule's values for `K = 8`, the instance of log entry 2. -/
def Obligations.ConstantOutputs : Prop :=
  (∀ c : Config,
    (cfgK c).toNat = c.K ∧ (cfgPSec c).toNat = pSec c.K ∧ (cfgN c).toNat = nBits c.K ∧
    (∀ p, 1 ≤ p → p ≤ nBits c.K →
      (portAt (cfgSecMask c) p = true ↔ p ∈ secParityPositions c.K) ∧
      (portAt (cfgDataMask c) p = true ↔ p ∈ dataPositions c.K) ∧
      (portAt (cfgOvpMask c) p = true ↔ p = nBits c.K)) ∧
    cfgOvpMask c = 1 ∧
    cfgSecMask c &&& cfgDataMask c = 0 ∧ cfgSecMask c &&& cfgOvpMask c = 0 ∧ cfgDataMask c &&& cfgOvpMask c = 0 ∧
    cfgSecMask c ||| cfgDataMask c ||| cfgOvpMask c = BitVec.allOnes (nBits c.K)) ∧
  (∀ s t : State, step s = .next t → t.cfg = s.cfg) ∧
  (wPos Config.default.K = 4 ∧ nBits Config.default.K = 13 ∧
    (cfgSecMask Config.default).toNat = 0b1101000100000 ∧ (cfgDataMask Config.default).toNat = 0b0010111011110 ∧
    (cfgOvpMask Config.default).toNat = 0b0000000000001)

/-! ## ENCODE (41_encode.md) -/

/-- R132, R134, and R133's formula: ENCODE completes on every `K`-bit operand and reports the codeword whose data
positions hold the data in order, whose check bits are the parities of the positions they cover, and whose last bit is
the parity of the others. These conditions fix every bit of `rsp_cw`. Every other field is 0 but `rsp_valid` (R135). -/
def Obligations.EncodeReportsTheCodeword : Prop :=
  ∀ (s : State) (D : BitSeq), D.length = s.cfg.K →
    ∃ cw : BitVec (nBits s.cfg.K),
      exec (.encode D) s = .next { s with rsp :=
        { valid := true, op := 0, status := 0, cw := cw, data := 0, syndrome := 0,
          ovpOk := false, cls := 0, reliable := false, flipPos := 0 } } ∧
      (∀ (j p : Nat) (b : Bool), (dataPositions s.cfg.K)[j]? = some p → D[j]? = some b → portAt cw p = b) ∧
      (∀ i < pSec s.cfg.K, portAt cw (2 ^ i) =
        xorOver ((positions 1 (s.cfg.K + pSec s.cfg.K)).filter (fun b => digit i b && b != 2 ^ i)) (portAt cw)) ∧
      portAt cw (nBits s.cfg.K) = xorOver (positions 1 (nBits s.cfg.K - 1)) (portAt cw)

/-- R113, R133 (the spec's inference from R104 and R9): no check position is covered by another check bit; a check bit
depends on the data positions alone; so the check bits may be computed in any order; and each, once placed, is the
parity of the other positions it covers. -/
def Obligations.CheckBitsInAnyOrder : Prop :=
  (∀ i j : Nat, i ≠ j → digit i (2 ^ j) = false) ∧
  (∀ (K i : Nat) (C C' : BitSeq), (∀ p ∈ dataPositions K, bitAt C p = bitAt C' p) →
    checkBit K i C = checkBit K i C') ∧
  (∀ (K : Nat) (C : BitSeq) (order : List Nat), C.length = nBits K → order.Perm (List.range (pSec K)) →
    order.foldl (fun C i => setBit C (2 ^ i) (checkBit K i C)) C = placeChecks K C) ∧
  (∀ (K i : Nat) (C : BitSeq), C.length = nBits K → i < pSec K →
    bitAt (placeChecks K C) (2 ^ i) =
      xorOver ((positions 1 (K + pSec K)).filter (fun b => digit i b && b != 2 ^ i)) (bitAt (placeChecks K C)))

/-- R135's corner cases (the spec's inference): `Encode` is linear over XOR, takes all-zero data to the all-zero
codeword, and repeats the bit four times for `K = 1`. -/
def Obligations.EncodeIsLinear : Prop :=
  (∀ (K : Nat) (D E : BitSeq), D.length = K → E.length = K →
    hammingEncode K (List.zipWith Bool.xor D E) =
      List.zipWith Bool.xor (hammingEncode K D) (hammingEncode K E)) ∧
  (∀ K : Nat, hammingEncode K (List.replicate K false) = List.replicate (nBits K) false) ∧
  (∀ d : Bool, hammingEncode 1 [d] = [d, d, d, d])

/-- R136 (the spec's inference from R133, R134 and R162): every encoded word is consistent: each covered set has parity
0, so has the whole word, it evaluates to `(0, true)`, and it decodes to `NoError` and its own data. -/
def Obligations.EncodedWordsAreConsistent : Prop :=
  ∀ (K : Nat) (D : BitSeq), D.length = K →
    (∀ i < pSec K, xorOver ((positions 1 (nBits K - 1)).filter (digit i)) (bitAt (hammingEncode K D)) = false) ∧
    xorOver (positions 1 (nBits K)) (bitAt (hammingEncode K D)) = false ∧
    hammingEvaluate K (hammingEncode K D) = (0, true) ∧
    (hammingDecode K (hammingEncode K D)).cls = .noError ∧
    (hammingDecode K (hammingEncode K D)).data = D

/-! ## EVALUATE (42_evaluate.md) -/

/-- R162, R163, R164: EVALUATE completes on every `N`-bit operand; syndrome bit `i` is the parity of the positions of
`[1, N-1]` that check `i` covers, the field is their sum by powers of two without loss, and the parity check compares
the parity of `[1, N-1]` with the bit at `N`, or what is the same (the spec's inference from R10) says that the whole
word's parity is 0. Every other field is 0 but `rsp_valid` and `rsp_op` (R165). -/
def Obligations.EvaluateReportsSyndromeAndParity : Prop :=
  ∀ (s : State) (C : BitSeq), C.length = nBits s.cfg.K →
    ∃ (syn : BitVec (pSec s.cfg.K)) (ok : Bool),
      exec (.evaluate C) s = .next { s with rsp :=
        { valid := true, op := 1, status := 0, cw := 0, data := 0, syndrome := syn,
          ovpOk := ok, cls := 0, reliable := false, flipPos := 0 } } ∧
      (∀ i < pSec s.cfg.K, syn.getLsbD i =
        xorOver ((positions 1 (nBits s.cfg.K - 1)).filter (digit i)) (bitAt C)) ∧
      syn.toNat = ((List.range (pSec s.cfg.K)).map (fun i =>
        (xorOver ((positions 1 (nBits s.cfg.K - 1)).filter (digit i)) (bitAt C)).toNat * 2 ^ i)).sum ∧
      ok = (xorOver (positions 1 (nBits s.cfg.K - 1)) (bitAt C) == bitAt C (nBits s.cfg.K)) ∧
      ok = !xorOver (positions 1 (nBits s.cfg.K)) (bitAt C)

/-- R166 (the spec's inference from R26): two EVALUATE requests with the same `req_cw` write the same syndrome and
parity check, whatever the register held, whatever `req_data` carried and whatever comes after. -/
def Obligations.EvaluateIsPure : Prop :=
  ∀ (c : Config) (cw : BitVec (nBits c.K)) (d1 d2 : BitVec c.K) (ps1 ps2 : List (PortIn c)) (r1 r2 : Response c),
    ∃ q1 q2 : Response c,
      step { cfg := c, inputs := requestCycle c 1 cw d1 :: ps1, rsp := r1 } =
        .next { cfg := c, inputs := ps1, rsp := q1 } ∧
      step { cfg := c, inputs := requestCycle c 1 cw d2 :: ps2, rsp := r2 } =
        .next { cfg := c, inputs := ps2, rsp := q2 } ∧
      q1.syndrome = q2.syndrome ∧ q1.ovpOk = q2.ovpOk

/-- R165's corner cases (the spec's inference): the all-zero word gives `(0, true)`; for the all-ones word the parity
check holds exactly when `N` is even, and syndrome bit `i` is 1 exactly when an odd number of positions is covered. -/
def Obligations.EvaluateConstantWords : Prop :=
  ∀ K : Nat,
    hammingEvaluate K (List.replicate (nBits K) false) = (0, true) ∧
    ((hammingEvaluate K (List.replicate (nBits K) true)).2 = true ↔ nBits K % 2 = 0) ∧
    (∀ i < pSec K, ((hammingEvaluate K (List.replicate (nBits K) true)).1.testBit i = true ↔
      ((positions 1 (nBits K - 1)).filter (digit i)).length % 2 = 1))

/-- R167, the error algebra (the spec's inference from R162, R164 and R136): with the positions of a set `E` flipped in
an encoded word, the syndrome is the XOR of those in `[1, N-1]` and the parity check holds exactly when `|E|` is even;
and what follows for one and two flips. For three, the rule's two possibilities are shown at `K = 8`: a syndrome above
`N-1`, and one that names a position not flipped. -/
def Obligations.ErrorAlgebra : Prop :=
  (∀ (K : Nat) (D : BitSeq) (E : List Nat), D.length = K → E.Nodup → (∀ p ∈ E, 1 ≤ p ∧ p ≤ nBits K) →
    syndrome K (flipAll (hammingEncode K D) E) =
      (E.filter (fun p => decide (p ≤ nBits K - 1))).foldr (fun p acc => p ^^^ acc) 0 ∧
    overallParityOk K (flipAll (hammingEncode K D) E) = decide (E.length % 2 = 0)) ∧
  (∀ (K : Nat) (D : BitSeq), D.length = K →
    (∀ p, 1 ≤ p → p ≤ nBits K - 1 → hammingEvaluate K (flipBit (hammingEncode K D) p) = (p, false)) ∧
    hammingEvaluate K (flipBit (hammingEncode K D) (nBits K)) = (0, false) ∧
    (∀ p q, 1 ≤ p → p ≤ nBits K - 1 → 1 ≤ q → q ≤ nBits K - 1 → p ≠ q →
      hammingEvaluate K (flipAll (hammingEncode K D) [p, q]) = (p ^^^ q, true) ∧ p ^^^ q ≠ 0) ∧
    (∀ p, 1 ≤ p → p ≤ nBits K - 1 →
      hammingEvaluate K (flipAll (hammingEncode K D) [p, nBits K]) = (p, true))) ∧
  (∀ D : BitSeq, D.length = 8 →
    hammingEvaluate 8 (flipAll (hammingEncode 8 D) [1, 4, 8]) = (13, false) ∧ nBits 8 - 1 < 13 ∧
    hammingEvaluate 8 (flipAll (hammingEncode 8 D) [1, 2, 4]) = (7, false))

/-! ## DECODE (43_decode.md) -/

/-- R193, R194, R196, R197: DECODE completes on every `N`-bit operand, with status OK. It reports the syndrome and
parity check of the received word, the class, flip position and reliability the table's five rows give them (the rows
exclude each other), the received word with the bit at the flip position inverted, and the data read from that word. -/
def Obligations.DecodeClassifiesAndCorrects : Prop :=
  ∀ (s : State) (C : BitSeq), C.length = nBits s.cfg.K →
    ∃ r : Response s.cfg,
      exec (.decode C) s = .next { s with rsp := r } ∧
      r.valid = true ∧ r.op = 2 ∧ r.status = 0 ∧
      (∀ i < pSec s.cfg.K, r.syndrome.getLsbD i =
        xorOver ((positions 1 (nBits s.cfg.K - 1)).filter (digit i)) (bitAt C)) ∧
      r.ovpOk = (xorOver (positions 1 (nBits s.cfg.K - 1)) (bitAt C) == bitAt C (nBits s.cfg.K)) ∧
      (r.syndrome.toNat = 0 → r.ovpOk = true →
        r.cls = 0 ∧ r.flipPos.toNat = 0 ∧ r.reliable = true) ∧
      (r.syndrome.toNat = 0 → r.ovpOk = false →
        r.cls = 1 ∧ r.flipPos.toNat = nBits s.cfg.K ∧ r.reliable = true) ∧
      (r.syndrome.toNat ≠ 0 → r.ovpOk = false → r.syndrome.toNat ≤ nBits s.cfg.K - 1 →
        r.cls = 2 ∧ r.flipPos.toNat = r.syndrome.toNat ∧ r.reliable = true) ∧
      (r.syndrome.toNat ≠ 0 → r.ovpOk = false → nBits s.cfg.K - 1 < r.syndrome.toNat →
        r.cls = 4 ∧ r.flipPos.toNat = 0 ∧ r.reliable = false) ∧
      (r.syndrome.toNat ≠ 0 → r.ovpOk = true →
        r.cls = 3 ∧ r.flipPos.toNat = 0 ∧ r.reliable = false) ∧
      (∀ p, 1 ≤ p → p ≤ nBits s.cfg.K →
        portAt r.cw p = Bool.xor (bitAt C p) (decide (p = r.flipPos.toNat))) ∧
      (∀ j p, (dataPositions s.cfg.K)[j]? = some p → r.data.getLsbD (s.cfg.K - 1 - j) = portAt r.cw p)

/-- R202, the headline of the hardware (the spec's inference from R193 and R167): for every width and every data word,
(a) the round trip, (b) every single error is corrected, (c) every double error is detected. -/
def Obligations.SecDedGuarantee : Prop :=
  ∀ (K : Nat) (D : BitSeq), 1 ≤ K → D.length = K →
    ((hammingDecode K (hammingEncode K D)).cls = .noError ∧ (hammingDecode K (hammingEncode K D)).data = D) ∧
    (∀ p, 1 ≤ p → p ≤ nBits K →
      (hammingDecode K (flipBit (hammingEncode K D) p)).cls =
        (if p = nBits K then .singleErrorOverallParity else .singleErrorCorrected) ∧
      (hammingDecode K (flipBit (hammingEncode K D) p)).data = D ∧
      (hammingDecode K (flipBit (hammingEncode K D) p)).reliable = true ∧
      (hammingDecode K (flipBit (hammingEncode K D) p)).flipPos = p ∧
      (hammingDecode K (flipBit (hammingEncode K D) p)).working = hammingEncode K D) ∧
    (∀ p q, 1 ≤ p → p ≤ nBits K → 1 ≤ q → q ≤ nBits K → p ≠ q →
      (hammingDecode K (flipBit (flipBit (hammingEncode K D) p) q)).cls = .doubleErrorDetected ∧
      (hammingDecode K (flipBit (flipBit (hammingEncode K D) p) q)).reliable = false)

/-- R201 (the spec's inference from R193 and R167): the anomaly class is reached for some received word exactly on the
widths with headroom, by any three flips whose positions XOR to a value above `N-1`, as positions 1, 4 and 8 do for `K =
8`. -/
def Obligations.AnomalyReachableExactlyWithHeadroom : Prop :=
  (∀ K : Nat, 1 ≤ K →
    (0 < headroom K ↔ ∃ C : BitSeq, C.length = nBits K ∧ (hammingDecode K C).cls = .uncorrectableAnomaly)) ∧
  (∀ (K : Nat) (D : BitSeq) (p q r : Nat), D.length = K → [p, q, r].Nodup →
    (∀ x ∈ [p, q, r], 1 ≤ x ∧ x ≤ nBits K - 1) → nBits K - 1 < p ^^^ q ^^^ r →
    (hammingDecode K (flipAll (hammingEncode K D) [p, q, r])).cls = .uncorrectableAnomaly) ∧
  (∀ D : BitSeq, D.length = 8 →
    (hammingDecode 8 (flipAll (hammingEncode 8 D) [1, 4, 8])).syndrome = 13 ∧
    (hammingDecode 8 (flipAll (hammingEncode 8 D) [1, 4, 8])).cls = .uncorrectableAnomaly)

/-- R203 (the spec's inference from R167): three flips can be miscorrected with `reliable = 1`, or taken for an
overall-parity error, and four can look clean; here for every data word of `K = 8`, with the flips of V-DEC-21, V-DEC-22
and V-DEC-24. -/
def Obligations.MoreFlipsCarryNoGuarantee : Prop :=
  ∀ D : BitSeq, D.length = 8 →
    ((hammingDecode 8 (flipAll (hammingEncode 8 D) [1, 2, 4])).cls = .singleErrorCorrected ∧
      (hammingDecode 8 (flipAll (hammingEncode 8 D) [1, 2, 4])).flipPos = 7 ∧
      (hammingDecode 8 (flipAll (hammingEncode 8 D) [1, 2, 4])).reliable = true ∧
      (hammingDecode 8 (flipAll (hammingEncode 8 D) [1, 2, 4])).data ≠ D) ∧
    (hammingDecode 8 (flipAll (hammingEncode 8 D) [1, 2, 3])).cls = .singleErrorOverallParity ∧
    ((hammingDecode 8 (flipAll (hammingEncode 8 D) [1, 2, 4, 7])).cls = .noError ∧
      (hammingDecode 8 (flipAll (hammingEncode 8 D) [1, 2, 4, 7])).data ≠ D)

/-! ## The reserved op, and operands no port can carry -/

/-- R265: the reserved op completes in every state, reports ILLEGAL_OP beside zeros, and changes nothing else; at the
ports it does so whatever the operand fields hold; and the next request is processed as if the reserved op had not been
presented. -/
def Obligations.ReservedReportsIllegalOp : Prop :=
  (∀ s : State, exec .rsvd s = .next { s with rsp :=
    { valid := true, op := 3, status := 1, cw := 0, data := 0, syndrome := 0,
      ovpOk := false, cls := 0, reliable := false, flipPos := 0 } }) ∧
  (∀ (c : Config) (cw : BitVec (nBits c.K)) (data : BitVec c.K) (ps : List (PortIn c)) (r : Response c),
    step { cfg := c, inputs := requestCycle c 3 cw data :: ps, rsp := r } = .next { cfg := c, inputs := ps, rsp :=
      { valid := true, op := 3, status := 1, cw := 0, data := 0, syndrome := 0,
        ovpOk := false, cls := 0, reliable := false, flipPos := 0 } }) ∧
  (∀ (c : Config) (cw : BitVec (nBits c.K)) (data : BitVec c.K) (q : PortIn c) (ps : List (PortIn c)) (r : Response c),
    q.reqValid = true → ∃ t : State,
      runEdges 2 { cfg := c, inputs := requestCycle c 3 cw data :: q :: ps, rsp := r } = .next t ∧
      step { cfg := c, inputs := q :: ps, rsp := r } = .next t) ∧
  failureCode .illegalOp = 7

/-- The source's `WrongLength` (R131, R161, R191): an instruction term whose operand has another length than the
instance's is refused by that name, with both lengths (the model's reading, log entry 5); and no request of the ports
decodes to such a term (R262). -/
def Obligations.WrongLengthOperandRefused : Prop :=
  (∀ (s : State) (D : BitSeq), D.length ≠ s.cfg.K →
    exec (.encode D) s = .refused (.wrongLength D.length s.cfg.K)) ∧
  (∀ (s : State) (C : BitSeq), C.length ≠ nBits s.cfg.K →
    exec (.evaluate C) s = .refused (.wrongLength C.length (nBits s.cfg.K)) ∧
    exec (.decode C) s = .refused (.wrongLength C.length (nBits s.cfg.K))) ∧
  (∀ (c : Config) (p : PortIn c), wellFormed c.K (requested c p) = true)

/-! ## The cycle step (10_state.md R26, 70_reset_and_hazards.md) -/

/-- A step with a request on the ports runs the decoded instruction (R26, R71, R72), on the state with that cycle's
inputs taken (the list of inputs is the model's own, log entry 3). -/
def Obligations.StepRunsTheRequest : Prop :=
  ∀ (c : Config) (p : PortIn c) (ps : List (PortIn c)) (r : Response c), p.rst = false → p.reqValid = true →
    step { cfg := c, inputs := p :: ps, rsp := r } =
      exec (decodeReq c.K p.reqOp p.reqCw p.reqData) { cfg := c, inputs := ps, rsp := r }

/-- R26: at every edge, `rst = 1` loads the reset value, also beside a request; otherwise an accepted request writes the
whole response its operation computes, with `rsp_valid = 1` and `rsp_op` its code, whatever the register held; otherwise
`rsp_valid` is cleared and every other field holds. That the response does not depend on the register is the spec's
inference from R20 and R13, and that an edge takes one cycle of the list of inputs is the model's (log entry 3). -/
def Obligations.CycleStep : Prop :=
  ∀ (c : Config) (p : PortIn c) (ps : List (PortIn c)),
    (p.rst = true → ∀ r, step { cfg := c, inputs := p :: ps, rsp := r } =
      .next { cfg := c, inputs := ps, rsp := Response.resetValue c }) ∧
    (p.rst = false → p.reqValid = true → ∃ q : Response c, q.valid = true ∧ q.op = p.reqOp ∧
      ∀ r, exec (decodeReq c.K p.reqOp p.reqCw p.reqData) { cfg := c, inputs := ps, rsp := r } =
          .next { cfg := c, inputs := ps, rsp := q } ∧
        step { cfg := c, inputs := p :: ps, rsp := r } = .next { cfg := c, inputs := ps, rsp := q }) ∧
    (p.rst = false → p.reqValid = false → ∀ r, step { cfg := c, inputs := p :: ps, rsp := r } =
      .next { cfg := c, inputs := ps, rsp := { r with valid := false } })

/-- No state stops the block and no step changes the instance (R260, R272, R24, R28): every step answers a next state,
of the same instance, with the host's next inputs taken, and the `cfg_*` outputs as before. -/
def Obligations.StepNeverStops : Prop :=
  ∀ s : State, ∃ r : Response s.cfg,
    step s = .next { cfg := s.cfg, inputs := s.inputs.tail, rsp := r } ∧
    outputs { cfg := s.cfg, inputs := s.inputs.tail, rsp := r } = { outputs s with rsp := r }

/-- R290: a reset edge sets every field of the response register to 0, also where a request is presented beside it
(R26). -/
def Obligations.ResetZeroesTheRegister : Prop :=
  ∀ (c : Config) (p : PortIn c) (ps : List (PortIn c)) (r : Response c), p.rst = true →
    step { cfg := c, inputs := p :: ps, rsp := r } = .next { cfg := c, inputs := ps, rsp :=
      { valid := false, op := 0, status := 0, cw := 0, data := 0, syndrome := 0,
        ovpOk := false, cls := 0, reliable := false, flipPos := 0 } }

/-- R291, R292: from every power-up draw, one reset edge is enough, and while `rst` stays 1 the register stays at its
reset values and every request presented in those cycles is lost. -/
def Obligations.ResetHoldsFromEveryPowerUp : Prop :=
  ∀ (c : Config) (draw : Response c) (rsts rest : List (PortIn c)),
    rsts ≠ [] → (∀ p ∈ rsts, p.rst = true) →
    runEdges rsts.length (powerUp c draw (rsts ++ rest)) =
      .next { State.resetOf c with inputs := rest }

/-- R295 (the spec's inference from R26): a response stays on the outputs through any number of cycles with no request,
and `rsp_valid` is 1 in the first cycle only. -/
def Obligations.ResponseHoldsWhileIdle : Prop :=
  ∀ (c : Config) (p : PortIn c) (idle rest : List (PortIn c)) (r : Response c),
    p.rst = false → p.reqValid = true → (∀ q ∈ idle, q.rst = false ∧ q.reqValid = false) →
    ∃ a : Response c, a.valid = true ∧
      step { cfg := c, inputs := p :: (idle ++ rest), rsp := r } =
        .next { cfg := c, inputs := idle ++ rest, rsp := a } ∧
      runEdges idle.length { cfg := c, inputs := idle ++ rest, rsp := a } =
        .next { cfg := c, inputs := rest, rsp := { a with valid := idle.isEmpty } }

/-- R297, R202 at the ports (the spec's inferences): the host reads `rsp_cw` after an ENCODE, changes none, one or two
of its bits, and presents it for DECODE; none or one is put right and the data comes back, two are detected. -/
def Obligations.EncodeThenDecodeAtThePorts : Prop :=
  ∀ (c : Config) (d junk : BitVec c.K) (w : BitVec (nBits c.K)) (ps qs : List (PortIn c)) (r0 : Response c),
    ∃ r1 : Response c,
      step { cfg := c, inputs := requestCycle c 0 w d :: ps, rsp := r0 } =
        .next { cfg := c, inputs := ps, rsp := r1 } ∧
      ∀ e : BitVec (nBits c.K), ∃ r2 : Response c,
        step { cfg := c, inputs := requestCycle c 2 (r1.cw ^^^ e) junk :: qs, rsp := r1 } =
          .next { cfg := c, inputs := qs, rsp := r2 } ∧
        (e = 0 → r2.cls = 0 ∧ r2.flipPos = 0 ∧ r2.data = d ∧ r2.cw = r1.cw ∧ r2.reliable = true) ∧
        (∀ b < nBits c.K, e = BitVec.twoPow (nBits c.K) b →
          r2.cls = (if b = 0 then 1 else 2) ∧ r2.flipPos.toNat = nBits c.K - b ∧
          r2.data = d ∧ r2.cw = r1.cw ∧ r2.reliable = true) ∧
        (∀ a b, a < b → b < nBits c.K → e = BitVec.twoPow (nBits c.K) a ^^^ BitVec.twoPow (nBits c.K) b →
          r2.cls = 3 ∧ r2.flipPos = 0 ∧ r2.cw = r1.cw ^^^ e ∧ r2.reliable = false)

/-! ## Invariants of the block -/

/-- Every step keeps the register legal (R25, R193, R197, R266): `rsp_status` is ILLEGAL_OP exactly for the reserved op
and OK otherwise, classes, flip positions, data and reliable marks stand beside a DECODE only, and there they are those
its syndrome and parity check select. A power-up register need not be legal (R292), so legality is the premise. -/
def Obligations.EveryStepKeepsTheRegisterLegal : Prop :=
  ∀ s t : State, s.Legal → step s = .next t → t.Legal

/-- The register is legal after reset, on an instance of every width (R290). -/
def Obligations.LegalAtReset : Prop := ∀ c : Config, (State.resetOf c).Legal ∧ State.reset.Legal

/-- Every step keeps this: a word the block reports as an ENCODE's result, or as the working copy of a DECODE marked
reliable, is a codeword (R136, R194). -/
def Obligations.EveryStepReportsCodewords : Prop :=
  ∀ s t : State, s.ReportsCodeword → step s = .next t → t.ReportsCodeword

/-- It holds after reset: the all-zero `rsp_cw` is a codeword of every width (R290, R165). -/
def Obligations.ReportsCodewordAtReset : Prop := ∀ c : Config, (State.resetOf c).ReportsCodeword

/-- One reset or accepting edge makes the register legal, whatever it held (R292, R293): no class code above 4, no
status above 1 and no flip position above `N` is ever written (R193, R266). -/
def Obligations.WritingEdgeMakesTheRegisterLegal : Prop :=
  ∀ s t : State, ((portsNow s).rst = true ∨ (portsNow s).reqValid = true) → step s = .next t →
    t.Legal ∧ t.rsp.cls.toNat ≤ 4 ∧ t.rsp.status.toNat ≤ 1 ∧ t.rsp.flipPos.toNat ≤ nBits t.cfg.K

/-! ## Encoding (30_encoding.md) -/

/-- R71: the four values of `op` select the four operations, each reading its own operand; the field a row does not read
is ignored, so the instruction is the same whatever it holds. -/
def Obligations.OpFieldSelectsTheOperation : Prop :=
  ∀ (K : Nat) (cw : BitVec (nBits K)) (data : BitVec K),
    decodeReq K 0 cw data = .encode (unpackSeq data) ∧
    decodeReq K 1 cw data = .evaluate (unpackSeq cw) ∧
    decodeReq K 2 cw data = .decode (unpackSeq cw) ∧
    decodeReq K 3 cw data = .rsvd

/-- Decode of encode, for every instruction, every operand value and every width (R70, R71, R75). -/
def Obligations.DecodeOfEncode : Prop :=
  ∀ (K : Nat) (i : Instr), wellFormed K i = true →
    decodeWord K (encodeWord K i) = i ∧ decodeBits K (encodeBits K i) = .ok i

/-- Encode of decode: the word of the decoded instruction keeps `op` and the operand field its row reads, and holds 0 in
the fields it does not read (R71, R76). -/
def Obligations.EncodeOfDecode : Prop :=
  ∀ (K : Nat) (w : BitVec (wReq K)),
    encodeWord K (decodeWord K w) = packReq K (opField K w)
      (if opField K w = 1 ∨ opField K w = 2 then cwField K w else 0)
      (if opField K w = 0 then dataField K w else 0)

/-- R75: a string of bits is a REQ word exactly when it has `W_REQ = 2 + N + K` bits; any other is refused by name, and
one of that length always decodes (R74). That another length is refused, and its name, is the model's choice (log entry
14). -/
def Obligations.OnlyTheLengthCanBeWrong : Prop :=
  ∀ (K : Nat) (bits : BitSeq),
    (bits.length ≠ 2 + nBits K + K → decodeBits K bits = .error (.wrongWordLength bits.length (2 + nBits K + K))) ∧
    (bits.length = 2 + nBits K + K → ∃ i, decodeBits K bits = .ok i ∧ wellFormed K i = true)

/-- Words written out from R70 and R77 for `K = 8` (PROG-1, PROG-2) decode to the instructions they stand for. -/
def Obligations.WordsOfTheSpecDecode : Prop :=
  decodeWord 8 0x0000D2#23 = .encode [true, true, false, true, false, false, true, false] ∧
  decodeWord 8 0x2D6400#23 =
    .evaluate [false, true, true, false, true, false, true, true, false, false, true, false, false] ∧
  decodeWord 8 0x4D6400#23 =
    .decode [false, true, true, false, true, false, true, true, false, false, true, false, false] ∧
  decodeWord 8 0x600000#23 = .rsvd

/-! ## The host side (48_host_interface.md, 60_exceptions.md) -/

/-- R232: the length is checked first; then the first element that is not 0 or 1 is reported; otherwise element `s`
becomes port bit `L-1-s`. -/
def Obligations.AdapterInbound : Prop :=
  ∀ (L : Nat) (x : List Char),
    (x.length ≠ L → toPort L x = .error (.wrongLength x.length L)) ∧
    (∀ i ch, x.length = L → x[i]? = some ch → ch ≠ '0' → ch ≠ '1' →
      (∀ j < i, x[j]? = some '0' ∨ x[j]? = some '1') → toPort L x = .error (.invalidSymbol i)) ∧
    (x.length = L → (∀ ch ∈ x, ch = '0' ∨ ch = '1') →
      ∃ v, toPort L x = .ok v ∧ ∀ s < L, v.getLsbD (L - 1 - s) = decide (x[s]? = some '1'))

/-- R233: `from_port` reads port bit `L-1-s` as element `s`, and a sequence that goes in comes out again. -/
def Obligations.AdapterOutbound : Prop :=
  (∀ (L : Nat) (v : BitVec L), (fromPort v).length = L ∧ ∀ s < L, (fromPort v)[s]? = some (v.getLsbD (L - 1 - s))) ∧
  (∀ (L : Nat) (v : BitVec L), toPort L (charsOfSeq (fromPort v)) = .ok v) ∧
  (∀ (L : Nat) (x : List Char) (v : BitVec L), toPort L x = .ok v → charsOfSeq (fromPort v) = x)

/-- R234, R235, R239 (the draw's form is log entry 8): `injectSingle` flips exactly the explicit position, or refuses
one outside `[1, N]`, or flips exactly the drawn one; a codeword of the wrong length is refused before that. -/
def Obligations.InjectSingleFlipsOnePosition : Prop :=
  ∀ (K : Nat) (draw : PositionDraw K),
    (∀ (x : List Char) (position : Option Int), x.length ≠ nBits K →
      injectSingle K x position draw = .error (.wrongLength x.length (nBits K))) ∧
    (∀ (C : BitSeq) (p : Int), C.length = nBits K → (p < 1 ∨ (nBits K : Int) < p) →
      injectSingle K (charsOfSeq C) (some p) draw = .error (.positionOutOfRange [p])) ∧
    (∀ (C : BitSeq) (p : Nat), C.length = nBits K → 1 ≤ p → p ≤ nBits K → ∃ C' : BitSeq,
      injectSingle K (charsOfSeq C) (some (p : Int)) draw = .ok (C', p) ∧ C'.length = nBits K ∧
      ∀ q, 1 ≤ q → q ≤ nBits K → bitAt C' q = Bool.xor (bitAt C q) (decide (q = p))) ∧
    (∀ C : BitSeq, C.length = nBits K → ∃ C' : BitSeq,
      injectSingle K (charsOfSeq C) none draw = .ok (C', draw.p) ∧ C'.length = nBits K ∧
      ∀ q, 1 ≤ q → q ≤ nBits K → bitAt C' q = Bool.xor (bitAt C q) (decide (q = draw.p)))

/-- R236, R237, R238 (the draw's form is log entry 8): `injectDouble` checks the range first, then that the two differ;
flips exactly the two; takes a drawn pair when both are omitted; and refuses exactly one. -/
def Obligations.InjectDoubleFlipsTwoPositions : Prop :=
  ∀ (K : Nat) (draw : PairDraw K) (C : BitSeq), C.length = nBits K →
    (∀ p q : Int, ¬ ((1 ≤ p ∧ p ≤ nBits K) ∧ (1 ≤ q ∧ q ≤ nBits K)) →
      injectDouble K (charsOfSeq C) (some p) (some q) draw = .error (.positionOutOfRange [p, q])) ∧
    (∀ p : Int, 1 ≤ p → p ≤ nBits K →
      injectDouble K (charsOfSeq C) (some p) (some p) draw = .error (.duplicatePosition p)) ∧
    (∀ p q : Nat, 1 ≤ p → p ≤ nBits K → 1 ≤ q → q ≤ nBits K → p ≠ q → ∃ C' : BitSeq,
      injectDouble K (charsOfSeq C) (some (p : Int)) (some (q : Int)) draw = .ok (C', p, q) ∧
      ∀ x, 1 ≤ x → x ≤ nBits K → bitAt C' x = Bool.xor (bitAt C x) (decide (x = p ∨ x = q))) ∧
    (∃ C' : BitSeq, injectDouble K (charsOfSeq C) none none draw = .ok (C', draw.p1, draw.p2) ∧
      ∀ x, 1 ≤ x → x ≤ nBits K → bitAt C' x = Bool.xor (bitAt C x) (decide (x = draw.p1 ∨ x = draw.p2))) ∧
    (∀ p : Int, injectDouble K (charsOfSeq C) (some p) none draw = .error (.incompletePositionPair p) ∧
      injectDouble K (charsOfSeq C) none (some p) draw = .error (.incompletePositionPair p))

/-- The §8 properties through the injector (R202, R235, R237, R240): for every draw, an injected single error decodes to
the data and an injected double error is detected. -/
def Obligations.EveryInjectionIsHandled : Prop :=
  ∀ (K : Nat) (D : BitSeq) (one : PositionDraw K) (two : PairDraw K), 1 ≤ K → D.length = K →
    (∃ C' : BitSeq, injectSingle K (charsOfSeq (hammingEncode K D)) none one = .ok (C', one.p) ∧
      (hammingDecode K C').data = D ∧ (hammingDecode K C').reliable = true ∧ (hammingDecode K C').flipPos = one.p) ∧
    (∃ C' : BitSeq, injectDouble K (charsOfSeq (hammingEncode K D)) none none two = .ok (C', two.p1, two.p2) ∧
      (hammingDecode K C').cls = .doubleErrorDetected ∧ (hammingDecode K C').reliable = false)

/-- R268, R262: a refused host operation leaves the block's state unchanged, and an accepted one adds its one cycle
after those already waiting. -/
def Obligations.RefusedOperationPresentsNothing : Prop :=
  ∀ s : State,
    (∀ f : Failure, submit s (.error f) = s) ∧
    (∀ x : List Char, x.length ≠ s.cfg.K → submit s (encodeCycle s.cfg x) = s) ∧
    (∀ x : List Char, x.length ≠ nBits s.cfg.K →
      submit s (evaluateCycle s.cfg x) = s ∧ submit s (decodeCycle s.cfg x) = s) ∧
    (∀ D : BitSeq, D.length = s.cfg.K →
      submit s (encodeCycle s.cfg (charsOfSeq D)) =
        { s with inputs := s.inputs ++ [requestCycle s.cfg 0 0 (packSeq _ D)] })

/-- R267: the seven failures are numbered 1 to 7 in the table's order. -/
def Obligations.FailureCodes : Prop :=
  (∀ k, failureCode (.invalidWidth k) = 1) ∧ (∀ a e, failureCode (.wrongLength a e) = 2) ∧
  (∀ i, failureCode (.invalidSymbol i) = 3) ∧ (∀ ps, failureCode (.positionOutOfRange ps) = 4) ∧
  (∀ p, failureCode (.duplicatePosition p) = 5) ∧ (∀ p, failureCode (.incompletePositionPair p) = 6) ∧
  failureCode .illegalOp = 7

/-- R76 for the `.k` directive: a decimal numeral below 1, 0 and the negative ones alike, is refused with `InvalidWidth`
(R100, R261), and one of at least 1 names the instance of that width. The numeral's form is the model's choice (log
entry 9). -/
def Obligations.WidthDirectiveNamesTheInstance : Prop :=
  ∀ (digits : List Char) (n : Nat), digitsValue 10 decimalValue digits = some n →
    (1 ≤ n → ∃ c : Config, c.K = n ∧ parseWidth digits = .ok c) ∧
    (n < 1 → parseWidth digits = .error (.host (.invalidWidth n))) ∧
    parseWidth ('-' :: digits) = .error (.host (.invalidWidth (-(n : Int))))

/-- R76, R77: the line of every instruction assembles to one cycle with `rst = 0` and `req_valid = 1` whose ports decode
to that instruction and whose listing is its REQ word; `NOP` and `RESET` assemble to cycles listed with no word. Any
cycle that presents a request is listed with `rst`, `req_valid` and the word it drives, also beside `rst = 1` (PROG-2
cycle 5). -/
def Obligations.AssembledLinesPresentTheInstruction : Prop :=
  ∀ c : Config,
    (∀ i : Instr, wellFormed c.K i = true → ∃ p : PortIn c, assembleLine c (lineOf i) = .ok p ∧
      p.rst = false ∧ p.reqValid = true ∧ requested c p = i ∧ listingWord c p = some (encodeWord c.K i)) ∧
    (∃ p : PortIn c, assembleLine c [['N', 'O', 'P']] = .ok p ∧ p.rst = false ∧ p.reqValid = false ∧
      listingWord c p = none) ∧
    (∃ p : PortIn c, assembleLine c [['R', 'E', 'S', 'E', 'T']] = .ok p ∧ p.rst = true ∧ p.reqValid = false ∧
      listingWord c p = none) ∧
    (∀ p : PortIn c, p.reqValid = true →
      listingRow c p = (p.rst, true, hexWord (packReq c.K p.reqOp p.reqCw p.reqData))) ∧
    (∀ p : PortIn c, p.reqValid = false → listingRow c p = (p.rst, false, ['-']))

/-- R76: a hex operand gives the port value, so a listing's hex word of a port reads back as that port value. -/
def Obligations.HexOperandReadsBack : Prop :=
  ∀ (L : Nat) (v : BitVec L), 1 ≤ L → parseOperand L (hexWord v) = .ok v

/-! ## Several instances (10_state.md R31) -/

/-- R31: an edge of one block changes that block by its own step and no other block (the list of blocks is the model's,
log entry 12). -/
def Obligations.InstancesShareNothing : Prop :=
  ∀ (blocks : List State) (n : Nat),
    (stepInstance blocks n).length = blocks.length ∧
    (∀ m, m ≠ n → (stepInstance blocks n)[m]? = blocks[m]?) ∧
    (∀ s, blocks[n]? = some s → ∃ t, step s = .next t ∧ (stepInstance blocks n)[n]? = some t)
end

