-- ==== Sys2Proof/Laws/Params.lean ====
section
/-! SUPPORT. Laws/Params.lean: what the parameter deriver's definitions say (40_parameters.md), once each. -/

namespace Sys2Proof.Machine

theorem leastFrom_holds (ok : Nat → Bool) (fuel p : Nat) (h : ∃ q, p ≤ q ∧ q ≤ p + fuel ∧ ok q = true) :
    ok (leastFrom ok fuel p) = true := by
  induction fuel generalizing p with
  | zero => obtain ⟨q, h1, h2, h3⟩ := h; obtain rfl : q = p := by omega
            exact h3
  | succ fuel ih =>
    unfold leastFrom
    split
    · assumption
    · rename_i hp
      obtain ⟨q, h1, h2, h3⟩ := h
      refine ih (p + 1) ⟨q, ?_, by omega, h3⟩
      rcases Nat.eq_or_lt_of_le h1 with rfl | h
      · exact absurd h3 hp
      · omega

theorem le_leastFrom (ok : Nat → Bool) (fuel p : Nat) : p ≤ leastFrom ok fuel p := by
  induction fuel generalizing p with
  | zero => exact Nat.le_refl p
  | succ fuel ih =>
    unfold leastFrom
    split
    · exact Nat.le_refl p
    · exact Nat.le_of_succ_le (ih (p + 1))

theorem leastFrom_least (ok : Nat → Bool) (fuel p q : Nat) (hp : p ≤ q) (hq : q < leastFrom ok fuel p) :
    ok q = false := by
  induction fuel generalizing p with
  | zero => simp only [leastFrom] at hq; omega
  | succ fuel ih =>
    unfold leastFrom at hq
    split at hq
    · omega
    · rename_i hok
      rcases Nat.eq_or_lt_of_le hp with rfl | h
      · simpa using hok
      · exact ih (p + 1) h hq

/-- `2^P_SEC ≥ K + P_SEC + 1` (40_parameters.md R101). -/
theorem pSec_covers (K : Nat) : K + pSec K + 1 ≤ 2 ^ pSec K := by
  have h := leastFrom_holds (fun p => decide (K + p + 1 ≤ 2 ^ p)) (K + 1) 0
    ⟨K + 1, by omega, by omega, by
      have : K + 1 ≤ 2 ^ K := Nat.lt_two_pow_self
      show decide (K + (K + 1) + 1 ≤ 2 ^ (K + 1)) = true
      rw [decide_eq_true_eq, Nat.pow_succ]; omega⟩
  simpa [pSec] using h

/-- No smaller number of check bits will do (40_parameters.md R101). -/
theorem pSec_least (K q : Nat) (h : q < pSec K) : 2 ^ q < K + q + 1 := by
  have := leastFrom_least _ _ _ q (Nat.zero_le q) h
  simpa using this

theorem pSec_unique (K p : Nat) (h1 : K + p + 1 ≤ 2 ^ p) (h2 : ∀ q < p, 2 ^ q < K + q + 1) : pSec K = p := by
  rcases Nat.lt_trichotomy (pSec K) p with h | h | h
  · have := h2 _ h; have := pSec_covers K; omega
  · exact h
  · have := pSec_least K p h; omega

theorem nBits_eq (K : Nat) : nBits K = K + pSec K + 1 := rfl

theorem two_le_pSec {K : Nat} (hK : 1 ≤ K) : 2 ≤ pSec K := by
  by_contra h
  have h1 := pSec_covers K
  interval_cases hp : pSec K <;> omega

theorem nBits_le_two_pow_pSec (K : Nat) : nBits K ≤ 2 ^ pSec K := pSec_covers K

/-- Every check position lies in `[1, K+P_SEC]` (40_parameters.md R112 (b)). -/
theorem two_pow_le_of_lt_pSec {K i : Nat} (h : i < pSec K) : 2 ^ i ≤ K + pSec K := by
  have h1 := pSec_least K (pSec K - 1) (by omega)
  have h2 : 2 ^ i ≤ 2 ^ (pSec K - 1) := Nat.pow_le_pow_right (by omega) (by omega)
  omega

theorem nBits_lt_two_pow_wPos (K : Nat) : nBits K < 2 ^ wPos K := by
  have h := leastFrom_holds (fun w => decide (nBits K < 2 ^ w)) (nBits K) 1
    ⟨nBits K, by rw [nBits_eq]; omega, by omega, by simpa using Nat.lt_two_pow_self⟩
  simpa [wPos] using h

theorem mem_positions {lo hi p : Nat} : p ∈ positions lo hi ↔ lo ≤ p ∧ p ≤ hi := by
  simp only [positions, List.mem_range'_1]; omega

theorem nodup_positions (lo hi : Nat) : (positions lo hi).Nodup := List.nodup_range'

theorem sorted_positions (lo hi : Nat) : (positions lo hi).Pairwise (· < ·) := List.pairwise_lt_range'

theorem positions_succ {lo hi : Nat} (h : lo ≤ hi + 1) : positions lo (hi + 1) = positions lo hi ++ [hi + 1] := by
  have : hi + 1 + 1 - lo = (hi + 1 - lo) + 1 := by omega
  simp only [positions, this, List.range'_1_concat]
  congr 2; omega

@[simp] theorem length_positions_one (m : Nat) : (positions 1 m).length = m := by simp [positions]

theorem getElem_positions_one (m s : Nat) (h : s < (positions 1 m).length) : (positions 1 m)[s] = s + 1 := by
  simp [positions, Nat.add_comm]

@[simp] theorem length_secParityPositions (K : Nat) : (secParityPositions K).length = pSec K := by
  simp [secParityPositions]

@[simp] theorem getElem_secParityPositions (K i : Nat) (h : i < (secParityPositions K).length) :
    (secParityPositions K)[i] = 2 ^ i := by simp [secParityPositions]

theorem mem_secParityPositions {K p : Nat} : p ∈ secParityPositions K ↔ ∃ i < pSec K, p = 2 ^ i := by
  simp only [secParityPositions, List.mem_map, List.mem_range]
  constructor <;> rintro ⟨i, h, rfl⟩ <;> exact ⟨i, h, rfl⟩

theorem secParityPositions_nodup (K : Nat) : (secParityPositions K).Nodup :=
  List.Nodup.map (fun _ _ h => Nat.pow_right_injective (Nat.le_refl 2) h) List.nodup_range

theorem mem_dataPositions {K p : Nat} :
    p ∈ dataPositions K ↔ (1 ≤ p ∧ p ≤ K + pSec K) ∧ p ∉ secParityPositions K := by
  simp [dataPositions, mem_positions]

theorem sorted_dataPositions (K : Nat) : (dataPositions K).Pairwise (· < ·) :=
  (sorted_positions _ _).filter _

theorem nodup_dataPositions (K : Nat) : (dataPositions K).Nodup := (nodup_positions _ _).filter _

theorem secParity_in_positions {K p : Nat} (h : p ∈ secParityPositions K) : 1 ≤ p ∧ p ≤ K + pSec K := by
  obtain ⟨i, hi, rfl⟩ := mem_secParityPositions.1 h
  exact ⟨Nat.one_le_two_pow, two_pow_le_of_lt_pSec hi⟩

/-- There are `K` data positions (40_parameters.md R105). -/
@[simp] theorem length_dataPositions (K : Nat) : (dataPositions K).length = K := by
  have h1 : ((positions 1 (K + pSec K)).filter (fun b => (secParityPositions K).contains b)).length = pSec K := by
    have : ((positions 1 (K + pSec K)).filter (fun b => (secParityPositions K).contains b)).Perm
        (secParityPositions K) := by
      refine (List.perm_ext_iff_of_nodup ((nodup_positions _ _).filter _) (secParityPositions_nodup K)).2 ?_
      intro p
      simp only [List.mem_filter, mem_positions, List.contains_iff_mem]
      exact ⟨fun h => h.2, fun h => ⟨secParity_in_positions h, h⟩⟩
    simpa using this.length_eq
  have h2 := List.length_eq_length_filter_add (l := positions 1 (K + pSec K))
    (fun b => (secParityPositions K).contains b)
  rw [h1, length_positions_one] at h2
  simp only [dataPositions]
  omega

end Sys2Proof.Machine
end

