-- ==== Sys2Proof/Laws/Operands.lean ====
section
/-! SUPPORT. Laws/Operands.lean: positions, exclusive ors and packing (00_scope.md R8 to R10, 10_state.md R23), one lemma
for each thing a later proof needs to know of them. -/

namespace Sys2Proof.Machine

/-! ## Positions -/

@[simp] theorem length_setBit (C : BitSeq) (p : Nat) (b : Bool) : (setBit C p b).length = C.length := by
  simp [setBit]

@[simp] theorem length_flipBit (C : BitSeq) (p : Nat) : (flipBit C p).length = C.length := by simp [flipBit]

@[simp] theorem length_flipAll (C : BitSeq) (E : List Nat) : (flipAll C E).length = C.length := by
  induction E generalizing C with
  | nil => rfl
  | cons p E ih => simpa [flipAll] using ih (flipBit C p)

theorem bitAt_eq_getElem (C : BitSeq) (p : Nat) (h1 : 1 ≤ p) (h2 : p ≤ C.length) :
    bitAt C p = C[p - 1]'(by omega) := by
  simp only [bitAt, seqIndex]
  exact List.getD_eq_getElem _ _ (by omega)

theorem bitAt_setBit (C : BitSeq) (p q : Nat) (b : Bool) (hp : 1 ≤ p) (hp' : p ≤ C.length) (hq : 1 ≤ q) :
    bitAt (setBit C p b) q = if q = p then b else bitAt C q := by
  simp only [bitAt, setBit, seqIndex, List.getD_eq_getElem?_getD, List.getElem?_set]
  by_cases h : q = p
  · subst h; simp [show q - 1 < C.length by omega]
  · rw [if_neg (by omega), if_neg h]

theorem bitAt_flipBit (C : BitSeq) (p q : Nat) (hp : 1 ≤ p) (hp' : p ≤ C.length) (hq : 1 ≤ q) :
    bitAt (flipBit C p) q = Bool.xor (bitAt C q) (decide (q = p)) := by
  rw [flipBit, bitAt_setBit C p q _ hp hp' hq]
  by_cases h : q = p
  · subst h; simp
  · simp [h]

/-- Two sequences of one length are equal when their bits at every position are. -/
theorem ext_bitAt {C C' : BitSeq} (hl : C.length = C'.length)
    (h : ∀ p, 1 ≤ p → p ≤ C.length → bitAt C p = bitAt C' p) : C = C' := by
  refine List.ext_getElem hl fun n h1 h2 => ?_
  have := h (n + 1) (by omega) (by omega)
  rwa [bitAt_eq_getElem C _ (by omega) (by omega), bitAt_eq_getElem C' _ (by omega) (by omega)] at this

theorem bitAt_replicate_false (n : Nat) (p : Nat) : bitAt (List.replicate n false) p = false := by
  simp only [bitAt, List.getD_eq_getElem?_getD, List.getElem?_replicate]
  split <;> rfl

/-! ## Exclusive or over a set of positions -/

@[simp] theorem xorOver_nil (f : Nat → Bool) : xorOver [] f = false := rfl

@[simp] theorem xorOver_cons (a : Nat) (S : List Nat) (f : Nat → Bool) :
    xorOver (a :: S) f = Bool.xor (f a) (xorOver S f) := rfl

theorem xorOver_append (S T : List Nat) (f : Nat → Bool) :
    xorOver (S ++ T) f = Bool.xor (xorOver S f) (xorOver T f) := by
  induction S with
  | nil => simp
  | cons a S ih => simp [ih]

theorem xorOver_congr {S : List Nat} {f g : Nat → Bool} (h : ∀ b ∈ S, f b = g b) : xorOver S f = xorOver S g := by
  induction S with
  | nil => rfl
  | cons a S ih =>
    rw [xorOver_cons, xorOver_cons, h a (by simp), ih fun b hb => h b (by simp [hb])]

theorem xorOver_xor (S : List Nat) (f g : Nat → Bool) :
    xorOver S (fun b => Bool.xor (f b) (g b)) = Bool.xor (xorOver S f) (xorOver S g) := by
  induction S with
  | nil => rfl
  | cons a S ih =>
    simp only [xorOver_cons, ih]
    cases f a <;> cases g a <;> cases xorOver S f <;> cases xorOver S g <;> rfl

theorem xorOver_false (S : List Nat) : xorOver S (fun _ => false) = false := by
  induction S with
  | nil => rfl
  | cons a S ih => simp [ih]

theorem xorOver_perm {S T : List Nat} (h : S.Perm T) (f : Nat → Bool) : xorOver S f = xorOver T f := by
  induction h with
  | nil => rfl
  | cons a _ ih => simp [ih]
  | swap a b S => simp only [xorOver_cons]; cases f a <;> cases f b <;> cases xorOver S f <;> rfl
  | trans _ _ ih1 ih2 => exact ih1.trans ih2

theorem xorOver_decide_eq {S : List Nat} (hS : S.Nodup) (p : Nat) :
    xorOver S (fun b => decide (b = p)) = decide (p ∈ S) := by
  induction S with
  | nil => simp
  | cons a S ih =>
    obtain ⟨ha, hS'⟩ := List.nodup_cons.1 hS
    rw [xorOver_cons, ih hS']
    by_cases h : a = p
    · subst h; simp [ha]
    · simp [h, Ne.symm h]

/-- One position of the set taken out. -/
theorem xorOver_remove {S : List Nat} (hS : S.Nodup) {a : Nat} (ha : a ∈ S) (f : Nat → Bool) :
    xorOver S f = Bool.xor (f a) (xorOver (S.filter (fun b => b != a)) f) := by
  induction S with
  | nil => simp at ha
  | cons c S ih =>
    obtain ⟨hc, hS'⟩ := List.nodup_cons.1 hS
    by_cases h : c = a
    · subst h
      have : S.filter (fun b => b != c) = S :=
        List.filter_eq_self.2 fun b hb => by simpa using fun (e : b = c) => hc (e ▸ hb)
      simp [this]
    · have ha' : a ∈ S := by
        rcases List.mem_cons.1 ha with e | e
        · exact absurd e.symm h
        · exact e
      simp only [xorOver_cons, ih hS' ha', List.filter_cons, bne_iff_ne, ne_eq, h, not_false_eq_true, if_true]
      rw [← Bool.xor_assoc, ← Bool.xor_assoc, Bool.xor_comm (f c)]

theorem digit_eq_testBit (i b : Nat) : digit i b = b.testBit i := by
  rw [digit, Nat.testBit_eq_decide_div_mod_eq]
  rfl

theorem mem_covered {i m b : Nat} : b ∈ covered i m ↔ (1 ≤ b ∧ b ≤ m) ∧ b.testBit i = true := by
  simp [covered, mem_positions, digit_eq_testBit]

theorem nodup_covered (i m : Nat) : (covered i m).Nodup := (nodup_positions 1 m).filter _

/-- The coverage set of check bit `i` holds no other check position (40_parameters.md R113). -/
theorem digit_two_pow (i j : Nat) : digit i (2 ^ j) = decide (j = i) := by
  rw [digit_eq_testBit, Nat.testBit_two_pow]

/-! ## Packing -/

theorem foldl_pack (x : BitSeq) (a : Nat) :
    x.foldl (fun acc b => 2 * acc + b.toNat) a =
      a * 2 ^ x.length + x.foldl (fun acc b => 2 * acc + b.toNat) 0 := by
  induction x generalizing a with
  | nil => simp
  | cons b x ih =>
    simp only [List.foldl_cons, List.length_cons]
    rw [ih (2 * a + b.toNat), ih (2 * 0 + b.toNat), Nat.pow_succ]
    ring

theorem foldl_pack_lt (x : BitSeq) : x.foldl (fun acc b => 2 * acc + b.toNat) 0 < 2 ^ x.length := by
  induction x with
  | nil => simp
  | cons b x ih =>
    simp only [List.foldl_cons, List.length_cons]
    rw [foldl_pack]
    have := b.toNat_le
    rw [Nat.pow_succ]
    nlinarith

theorem testBit_foldl_pack (x : BitSeq) (s : Nat) (hs : s < x.length) :
    (x.foldl (fun acc (b : Bool) => 2 * acc + b.toNat) 0).testBit (x.length - 1 - s) = x[s] := by
  induction x generalizing s with
  | nil => simp at hs
  | cons b x ih =>
    simp only [List.foldl_cons, List.length_cons]
    rw [foldl_pack]
    have hlt := foldl_pack_lt x
    cases s with
    | zero =>
      have : x.length + 1 - 1 - 0 = x.length := by omega
      rw [this, Nat.mul_comm, Nat.testBit_two_pow_mul_add _ hlt]
      cases b <;> simp
    | succ s =>
      have hs' : s < x.length := by simpa using hs
      have e : x.length + 1 - 1 - (s + 1) = x.length - 1 - s := by omega
      rw [e, Nat.mul_comm, Nat.testBit_two_pow_mul_add _ hlt, if_pos (by omega), ih s hs']
      rfl

@[simp] theorem length_unpackSeq {L : Nat} (v : BitVec L) : (unpackSeq v).length = L := by simp [unpackSeq]

@[simp] theorem getElem_unpackSeq {L : Nat} (v : BitVec L) (s : Nat) (h : s < (unpackSeq v).length) :
    (unpackSeq v)[s] = v.getLsbD (L - 1 - s) := by simp [unpackSeq]

/-- Element `s` of the sequence is port bit `L-1-s` (10_state.md R23). -/
theorem getLsbD_packSeq {L : Nat} (x : BitSeq) (hx : x.length = L) (s : Nat) (hs : s < L) :
    (packSeq L x).getLsbD (L - 1 - s) = x[s] := by
  subst hx
  rw [packSeq, BitVec.getLsbD_ofNat, testBit_foldl_pack x s hs]
  simp; omega

theorem unpackSeq_packSeq {L : Nat} (x : BitSeq) (hx : x.length = L) : unpackSeq (packSeq L x) = x := by
  refine List.ext_getElem (by simp [hx]) fun s h1 h2 => ?_
  rw [getElem_unpackSeq, getLsbD_packSeq x hx s (by omega)]

theorem packSeq_unpackSeq {L : Nat} (v : BitVec L) : packSeq L (unpackSeq v) = v := by
  refine BitVec.eq_of_getLsbD_eq fun i hi => ?_
  have := getLsbD_packSeq (unpackSeq v) (length_unpackSeq v) (L - 1 - i) (by omega)
  rwa [getElem_unpackSeq, show L - 1 - (L - 1 - i) = i by omega] at this

/-- `C⟨p⟩` is port bit `N-p` (10_state.md R23). -/
theorem bitAt_unpackSeq {L : Nat} (v : BitVec L) (p : Nat) (h1 : 1 ≤ p) (h2 : p ≤ L) :
    bitAt (unpackSeq v) p = v.getLsbD (L - p) := by
  rw [bitAt_eq_getElem _ p h1 (by simpa using h2), getElem_unpackSeq]
  congr 1; omega

theorem getLsbD_packSeq_position {L : Nat} (C : BitSeq) (hC : C.length = L) (p : Nat) (h1 : 1 ≤ p) (h2 : p ≤ L) :
    (packSeq L C).getLsbD (L - p) = bitAt C p := by
  rw [← bitAt_unpackSeq _ p h1 h2, unpackSeq_packSeq C hC]

theorem portAt_packSeq {L : Nat} (C : BitSeq) (hC : C.length = L) (p : Nat) (h1 : 1 ≤ p) (h2 : p ≤ L) :
    portAt (packSeq L C) p = bitAt C p := getLsbD_packSeq_position C hC p h1 h2

theorem packSeq_injective {L : Nat} {x y : BitSeq} (hx : x.length = L) (hy : y.length = L)
    (h : packSeq L x = packSeq L y) : x = y := by
  rw [← unpackSeq_packSeq x hx, h, unpackSeq_packSeq y hy]

end Sys2Proof.Machine
end

