-- ==== Sys2Proof/Laws/Evaluate.lean ====
section
/-! SUPPORT. Laws/Evaluate.lean: the digits of a syndrome (42_evaluate.md R163), and what one flipped bit does to the
syndrome and to the overall parity check, which is the step of the error algebra (R167). -/

namespace Sys2Proof.Machine

theorem foldl_digits_lt (b : Nat → Bool) (n : Nat) :
    (List.range n).foldl (fun s i => if b i then s + 2 ^ i else s) 0 < 2 ^ n := by
  induction n with
  | zero => simp
  | succ n ih =>
    rw [List.range_succ, List.foldl_append, Nat.pow_succ]
    simp only [List.foldl_cons, List.foldl_nil]
    split <;> omega

theorem testBit_foldl_digits (b : Nat → Bool) (n i : Nat) :
    ((List.range n).foldl (fun s i => if b i then s + 2 ^ i else s) 0).testBit i = (decide (i < n) && b i) := by
  induction n with
  | zero => simp
  | succ n ih =>
    rw [List.range_succ, List.foldl_append]
    simp only [List.foldl_cons, List.foldl_nil]
    have hlt := foldl_digits_lt b n
    generalize (List.range n).foldl (fun s i => if b i then s + 2 ^ i else s) 0 = t at ih hlt ⊢
    have e : (if b n = true then t + 2 ^ n else t) = 2 ^ n * (b n).toNat + t := by
      cases b n <;> simp [Nat.add_comm]
    rw [e, Nat.testBit_two_pow_mul_add _ hlt]
    by_cases h : i < n
    · rw [if_pos h, ih]; simp [h, Nat.lt_succ_of_lt h]
    · rw [if_neg h]
      by_cases h' : i = n
      · subst h'; cases b i <;> simp
      · have h2 : ¬ i < n + 1 := by omega
        have h3 : i - n ≠ 0 := by omega
        have h4 : Nat.testBit 1 (i - n) = false := by
          simpa using Nat.testBit_two_pow_of_ne (n := 0) (m := i - n) (Ne.symm h3)
        cases b n <;> simp [h2, h4]

/-- `bit_i(syndrome) = s_i` (42_evaluate.md R163). -/
theorem testBit_syndrome (K i : Nat) (C : BitSeq) :
    (syndrome K C).testBit i = (decide (i < pSec K) && syndromeBit K i C) :=
  testBit_foldl_digits (fun i => syndromeBit K i C) (pSec K) i

/-- `syndrome ≤ 2^P_SEC - 1` (42_evaluate.md R163). -/
theorem syndrome_lt (K : Nat) (C : BitSeq) : syndrome K C < 2 ^ pSec K :=
  foldl_digits_lt (fun i => syndromeBit K i C) (pSec K)

theorem toNat_zextTo {W x : Nat} (h : x < 2 ^ W) : (zextTo W x).toNat = x := by
  rw [zextTo, BitVec.toNat_ofNat, Nat.mod_eq_of_lt h]

theorem protected_lt_two_pow {K p : Nat} (h : p ≤ nBits K - 1) : p < 2 ^ pSec K := by
  have := pSec_covers K
  rw [nBits_eq] at h
  omega

theorem syndromeBit_flipBit {K i p : Nat} {C : BitSeq} (h1 : 1 ≤ p) (h2 : p ≤ C.length) :
    syndromeBit K i (flipBit C p) =
      Bool.xor (syndromeBit K i C) (decide (p ≤ nBits K - 1) && p.testBit i) := by
  have : syndromeBit K i (flipBit C p) =
      xorOver (covered i (nBits K - 1)) (fun b => Bool.xor (bitAt C b) (decide (b = p))) :=
    xorOver_congr fun b hb => bitAt_flipBit C p b h1 h2 (mem_covered.1 hb).1.1
  rw [this, xorOver_xor, xorOver_decide_eq (nodup_covered _ _)]
  congr 1
  rw [Bool.eq_iff_iff]
  simp [mem_covered, h1]

/-- One flip changes the syndrome by the position flipped, or not at all at position `N` (42_evaluate.md R167). -/
theorem syndrome_flipBit {K p : Nat} {C : BitSeq} (h1 : 1 ≤ p) (h2 : p ≤ C.length) :
    syndrome K (flipBit C p) = syndrome K C ^^^ (if p ≤ nBits K - 1 then p else 0) := by
  refine Nat.eq_of_testBit_eq fun i => ?_
  rw [Nat.testBit_xor, testBit_syndrome, testBit_syndrome, syndromeBit_flipBit h1 h2]
  by_cases hp : p ≤ nBits K - 1
  · by_cases hi : i < pSec K
    · simp [hp, hi]
    · have : p.testBit i = false := Nat.testBit_lt_two_pow
        (Nat.lt_of_lt_of_le (protected_lt_two_pow hp) (Nat.pow_le_pow_right (by omega) (by omega)))
      simp [hp, hi, this]
  · simp [hp]

theorem protectedParity_flipBit {K p : Nat} {C : BitSeq} (h1 : 1 ≤ p) (h2 : p ≤ C.length) :
    protectedParity K (flipBit C p) = Bool.xor (protectedParity K C) (decide (p ≤ nBits K - 1)) := by
  have : protectedParity K (flipBit C p) =
      xorOver (positions 1 (nBits K - 1)) (fun b => Bool.xor (bitAt C b) (decide (b = p))) :=
    xorOver_congr fun b hb => bitAt_flipBit C p b h1 h2 (mem_positions.1 hb).1
  rw [this, xorOver_xor, xorOver_decide_eq (nodup_positions _ _)]
  simp only [protectedParity, mem_positions, h1, true_and]

/-- One flip anywhere in `[1, N]` inverts the overall parity check (42_evaluate.md R167). -/
theorem overallParityOk_flipBit {K p : Nat} {C : BitSeq} (hC : C.length = nBits K) (h1 : 1 ≤ p) (h2 : p ≤ nBits K) :
    overallParityOk K (flipBit C p) = !overallParityOk K C := by
  have hN : 1 ≤ nBits K := by omega
  rw [overallParityOk, protectedParity_flipBit h1 (by omega), overallParityPosition,
    bitAt_flipBit C p _ h1 (by omega) hN, overallParityOk, overallParityPosition]
  by_cases hp : p = nBits K
  · have : ¬ nBits K ≤ nBits K - 1 := by omega
    subst hp
    simp only [this, decide_true, decide_false, Bool.xor_false, Bool.xor_true]
    cases protectedParity K C <;> cases bitAt C (nBits K) <;> rfl
  · have h3 : p ≤ nBits K - 1 := by omega
    have h4 : ¬ nBits K = p := fun e => hp e.symm
    simp only [h3, h4, decide_true, decide_false, Bool.xor_false, Bool.xor_true]
    cases protectedParity K C <;> cases bitAt C (nBits K) <;> rfl

/-- The overall parity check is the parity of all of `[1, N]` (42_evaluate.md R164). -/
theorem overallParityOk_eq (K : Nat) (C : BitSeq) :
    overallParityOk K C = !xorOver (positions 1 (nBits K)) (bitAt C) := by
  obtain ⟨m, hm⟩ : ∃ m, nBits K = m + 1 := ⟨K + pSec K, nBits_eq K⟩
  rw [overallParityOk, protectedParity, overallParityPosition, hm, Nat.add_sub_cancel,
    positions_succ (by omega), xorOver_append]
  simp only [xorOver_cons, xorOver_nil, Bool.xor_false]
  cases xorOver (positions 1 m) (bitAt C) <;> cases bitAt C (m + 1) <;> rfl

end Sys2Proof.Machine
end

