-- ==== Sys2Proof/Laws/Correct.lean ====
section
/-! SUPPORT. Laws/Correct.lean: the classification table row by row, the corrector and the extractor (43_decode.md). -/

namespace Sys2Proof.Machine

theorem classify_clean (K : Nat) : classify K 0 true = .noError := rfl

theorem classify_overall (K : Nat) : classify K 0 false = .singleErrorOverallParity := rfl

theorem classify_double {K s : Nat} (h : s ≠ 0) : classify K s true = .doubleErrorDetected := by simp [classify, h]

theorem classify_single {K s : Nat} (h : s ≠ 0) (h' : s ≤ nBits K - 1) : classify K s false = .singleErrorCorrected := by
  simp [classify, h, h']

theorem classify_anomaly {K s : Nat} (h : s ≠ 0) (h' : nBits K - 1 < s) :
    classify K s false = .uncorrectableAnomaly := by
  simp [classify, h, Nat.not_le.2 h']

/-- Only the two single-error classes name a position to flip, and it lies in `[1, N]` (43_decode.md R193). -/
theorem flipPosition_le (K s : Nat) (ok : Bool) : flipPosition K s (classify K s ok) ≤ nBits K := by
  unfold classify flipPosition overallParityPosition
  split_ifs <;> (simp; try omega)

@[simp] theorem length_correct (C : BitSeq) (flip : Nat) : (correct C flip).length = C.length := by
  unfold correct; split <;> simp

@[simp] theorem length_extractData (K : Nat) (W : BitSeq) : (extractData K W).length = (dataPositions K).length := by
  simp [extractData]

theorem getElem_extractData (K : Nat) (W : BitSeq) (j : Nat) (h : j < (extractData K W).length) :
    (extractData K W)[j] = bitAt W ((dataPositions K)[j]'(by simpa using h)) := by simp [extractData]

theorem bitAt_correct (C : BitSeq) (flip p : Nat) (hf : flip ≤ C.length) (hp : 1 ≤ p) :
    bitAt (correct C flip) p = Bool.xor (bitAt C p) (decide (p = flip)) := by
  unfold correct
  split
  · rename_i h
    have : p ≠ flip := by omega
    simp [this]
  · exact bitAt_flipBit C flip p (by omega) hf hp

end Sys2Proof.Machine
end

