-- ==== Sys2Proof/Laws/Decode.lean ====
section
/-! SUPPORT. Laws/Decode.lean: the fields of a packed request word (30_encoding.md R70) and what the decoder yields. -/

namespace Sys2Proof

open Machine

theorem getLsbD_packReq (K : Nat) (op : BitVec 2) (cw : BitVec (nBits K)) (data : BitVec K) (i : Nat) :
    (packReq K op cw data).getLsbD i =
      if i < K then data.getLsbD i
      else if i < nBits K + K then cw.getLsbD (i - K) else op.getLsbD (i - (nBits K + K)) := by
  show ((op ++ cw) ++ data).getLsbD i = _
  rw [BitVec.getLsbD_append, BitVec.getLsbD_append]
  split
  · rfl
  · by_cases h : i < nBits K + K
    · rw [if_pos h, if_pos (by omega)]
    · rw [if_neg h, if_neg (by omega), Nat.sub_sub, Nat.add_comm K]

@[simp] theorem opField_packReq (K : Nat) (op : BitVec 2) (cw : BitVec (nBits K)) (data : BitVec K) :
    opField K (packReq K op cw data) = op := by
  refine BitVec.eq_of_getLsbD_eq fun i hi => ?_
  rw [opField, BitVec.getLsbD_extractLsb', getLsbD_packReq, if_neg (by omega), if_neg (by omega)]
  simp [hi]

@[simp] theorem cwField_packReq (K : Nat) (op : BitVec 2) (cw : BitVec (nBits K)) (data : BitVec K) :
    cwField K (packReq K op cw data) = cw := by
  refine BitVec.eq_of_getLsbD_eq fun i hi => ?_
  rw [cwField, BitVec.getLsbD_extractLsb', getLsbD_packReq, if_neg (by omega), if_pos (by omega)]
  simp [hi]

@[simp] theorem dataField_packReq (K : Nat) (op : BitVec 2) (cw : BitVec (nBits K)) (data : BitVec K) :
    dataField K (packReq K op cw data) = data := by
  refine BitVec.eq_of_getLsbD_eq fun i hi => ?_
  rw [dataField, BitVec.getLsbD_extractLsb', getLsbD_packReq, if_pos (by omega)]
  simp [hi]

/-- The decoder yields well-formed instructions only: no request is of the wrong length (60_exceptions.md R262). -/
theorem wellFormed_decodeReq (K : Nat) (op : BitVec 2) (cw : BitVec (nBits K)) (data : BitVec K) :
    wellFormed K (decodeReq K op cw data) = true := by
  unfold decodeReq
  split <;> simp [wellFormed]

/-- The code of the decoded instruction is the request's `op`. -/
theorem opCode_decodeReq (K : Nat) (op : BitVec 2) (cw : BitVec (nBits K)) (data : BitVec K) :
    opCode (decodeReq K op cw data) = op := by
  have h : ∀ v : BitVec 2, v = 0 ∨ v = 1 ∨ v = 2 ∨ v = 3 := by decide
  rcases h op with rfl | rfl | rfl | rfl <;> rfl

end Sys2Proof
end

