-- ==== Sys2Proof/Laws/Encode.lean ====
section
/-! SUPPORT. Laws/Encode.lean: the bits of an encoded word, position by position (41_encode.md R132 to R134). -/

namespace Sys2Proof.Machine

theorem length_foldl_setBit (ps : List (Nat × Bool)) (C : BitSeq) :
    (ps.foldl (fun C pd => setBit C pd.1 pd.2) C).length = C.length := by
  induction ps generalizing C with
  | nil => rfl
  | cons pd ps ih => simpa using ih (setBit C pd.1 pd.2)

theorem bitAt_foldl_setBit_of_not_mem (ps : List (Nat × Bool)) (C : BitSeq) (q : Nat) (hq : 1 ≤ q)
    (hr : ∀ pd ∈ ps, 1 ≤ pd.1 ∧ pd.1 ≤ C.length) (h : q ∉ ps.map Prod.fst) :
    bitAt (ps.foldl (fun C pd => setBit C pd.1 pd.2) C) q = bitAt C q := by
  induction ps generalizing C with
  | nil => rfl
  | cons pd ps ih =>
    simp only [List.map_cons, List.mem_cons, not_or] at h
    obtain ⟨h1, h2⟩ := hr pd (by simp)
    rw [List.foldl_cons, ih _ (fun e he => by simpa using hr e (by simp [he])) h.2,
      bitAt_setBit C _ _ _ h1 h2 hq, if_neg h.1]

theorem bitAt_foldl_setBit_of_mem (ps : List (Nat × Bool)) (C : BitSeq) (q : Nat) (b : Bool)
    (hr : ∀ pd ∈ ps, 1 ≤ pd.1 ∧ pd.1 ≤ C.length) (hn : (ps.map Prod.fst).Nodup) (h : (q, b) ∈ ps) :
    bitAt (ps.foldl (fun C pd => setBit C pd.1 pd.2) C) q = b := by
  induction ps generalizing C with
  | nil => simp at h
  | cons pd ps ih =>
    obtain ⟨hpd, hn'⟩ := List.nodup_cons.1 hn
    obtain ⟨h1, h2⟩ := hr pd (by simp)
    have hr' : ∀ e ∈ ps, 1 ≤ e.1 ∧ e.1 ≤ (setBit C pd.1 pd.2).length :=
      fun e he => by simpa using hr e (by simp [he])
    rw [List.foldl_cons]
    rcases List.mem_cons.1 h with rfl | h
    · rw [bitAt_foldl_setBit_of_not_mem ps _ _ h1 hr' hpd, bitAt_setBit C _ _ _ h1 h2 h1, if_pos rfl]
    · exact ih _ hr' hn' h

/-! ## Step 1 -/

@[simp] theorem length_placeData (K : Nat) (D : BitSeq) : (placeData K D).length = nBits K := by
  simp [placeData, length_foldl_setBit]

theorem placeData_pairs_in_range (K : Nat) (D : BitSeq) :
    ∀ pd ∈ (dataPositions K).zip D, 1 ≤ pd.1 ∧ pd.1 ≤ (List.replicate (nBits K) false).length := by
  intro pd h
  have := (mem_dataPositions.1 (List.of_mem_zip h).1).1
  rw [List.length_replicate, nBits_eq]
  omega

theorem bitAt_placeData_data {K : Nat} {D : BitSeq} (hD : D.length = K) (j : Nat) (hj : j < K) :
    bitAt (placeData K D) ((dataPositions K)[j]'(by simpa using hj)) = D[j] := by
  refine bitAt_foldl_setBit_of_mem _ _ _ _ (placeData_pairs_in_range K D) ?_ ?_
  · rw [List.map_fst_zip (by simp [hD])]
    exact nodup_dataPositions K
  · rw [List.mem_iff_getElem]
    exact ⟨j, by simp [hD, hj], by simp⟩

theorem bitAt_placeData_other {K : Nat} {D : BitSeq} {p : Nat} (h1 : 1 ≤ p) (hp : p ∉ dataPositions K) :
    bitAt (placeData K D) p = false := by
  rw [placeData, bitAt_foldl_setBit_of_not_mem _ _ _ h1 (placeData_pairs_in_range K D), bitAt_replicate_false]
  intro h
  obtain ⟨pd, hpd, rfl⟩ := List.mem_map.1 h
  exact hp (List.of_mem_zip hpd).1

/-! ## Step 2 -/

/-- A check bit reads data positions only (40_parameters.md R113). -/
theorem checkBit_congr {K i : Nat} {C C' : BitSeq}
    (h : ∀ p, 1 ≤ p → p ≤ K + pSec K → p ∉ secParityPositions K → bitAt C p = bitAt C' p) :
    checkBit K i C = checkBit K i C' := by
  refine xorOver_congr fun b hb => ?_
  obtain ⟨hb, hne⟩ := List.mem_filter.1 hb
  obtain ⟨⟨h1, h2⟩, hd⟩ := mem_covered.1 hb
  refine h b h1 h2 fun hsec => ?_
  obtain ⟨j, -, rfl⟩ := mem_secParityPositions.1 hsec
  rw [Nat.testBit_two_pow, decide_eq_true_eq] at hd
  subst hd
  simp at hne

theorem length_foldl_checks (K : Nat) (is : List Nat) (C : BitSeq) :
    (is.foldl (fun C i => setBit C (2 ^ i) (checkBit K i C)) C).length = C.length := by
  induction is generalizing C with
  | nil => rfl
  | cons i is ih => simpa using ih (setBit C (2 ^ i) (checkBit K i C))

@[simp] theorem length_placeChecks (K : Nat) (C : BitSeq) : (placeChecks K C).length = C.length :=
  length_foldl_checks K _ C

theorem two_pow_le_nBits {K i : Nat} (h : i < pSec K) : 2 ^ i ≤ nBits K := by
  have := two_pow_le_of_lt_pSec h
  rw [nBits_eq]; omega

/-- The first `n` check bits written, none of them reading another. -/
theorem bitAt_foldl_checks {K : Nat} {C : BitSeq} (hC : C.length = nBits K) (n : Nat) (hn : n ≤ pSec K)
    (q : Nat) (hq : 1 ≤ q) :
    (∀ i < n, q = 2 ^ i →
      bitAt ((List.range n).foldl (fun C i => setBit C (2 ^ i) (checkBit K i C)) C) q = checkBit K i C) ∧
    ((∀ i < n, q ≠ 2 ^ i) →
      bitAt ((List.range n).foldl (fun C i => setBit C (2 ^ i) (checkBit K i C)) C) q = bitAt C q) := by
  induction n generalizing q with
  | zero => simp
  | succ n ih =>
    rw [List.range_succ, List.foldl_append]
    simp only [List.foldl_cons, List.foldl_nil]
    generalize hF : (List.range n).foldl (fun C i => setBit C (2 ^ i) (checkBit K i C)) C = F at ih ⊢
    have hlen : F.length = nBits K := by rw [← hF, length_foldl_checks, hC]
    have hcheck : checkBit K n F = checkBit K n C := checkBit_congr fun p h1 _ h3 =>
      (ih (by omega) p h1).2 fun i hi e => h3 (mem_secParityPositions.2 ⟨i, by omega, e⟩)
    have hset := bitAt_setBit F (2 ^ n) q (checkBit K n F) Nat.one_le_two_pow
      (by rw [hlen]; exact two_pow_le_nBits (by omega)) hq
    rw [hset]
    constructor
    · intro i hi e
      by_cases h : i = n
      · subst h; rw [if_pos e, hcheck]
      · have : q ≠ 2 ^ n := fun e' => h (Nat.pow_right_injective (Nat.le_refl 2) (e.symm.trans e'))
        rw [if_neg this]
        exact (ih (by omega) q hq).1 i (by omega) e
    · intro h
      rw [if_neg (h n (by omega))]
      exact (ih (by omega) q hq).2 fun i hi => h i (by omega)

theorem bitAt_placeChecks_check {K i : Nat} {C : BitSeq} (hC : C.length = nBits K) (hi : i < pSec K) :
    bitAt (placeChecks K C) (2 ^ i) = checkBit K i C :=
  (bitAt_foldl_checks hC (pSec K) (Nat.le_refl _) _ Nat.one_le_two_pow).1 i hi rfl

theorem bitAt_placeChecks_other {K p : Nat} {C : BitSeq} (hC : C.length = nBits K) (h1 : 1 ≤ p)
    (hp : p ∉ secParityPositions K) : bitAt (placeChecks K C) p = bitAt C p :=
  (bitAt_foldl_checks hC (pSec K) (Nat.le_refl _) _ h1).2 fun i hi e => hp (mem_secParityPositions.2 ⟨i, hi, e⟩)

/-! ## The whole codeword -/

@[simp] theorem length_placeOverall (K : Nat) (C : BitSeq) : (placeOverall K C).length = C.length := by
  simp [placeOverall]

@[simp] theorem length_hammingEncode (K : Nat) (D : BitSeq) : (hammingEncode K D).length = nBits K := by
  simp [hammingEncode]

theorem one_le_nBits (K : Nat) : 1 ≤ nBits K := by rw [nBits_eq]; omega

theorem bitAt_placeOverall_protected {K p : Nat} {C : BitSeq} (hC : C.length = nBits K) (h1 : 1 ≤ p)
    (h2 : p ≤ K + pSec K) : bitAt (placeOverall K C) p = bitAt C p := by
  rw [placeOverall, overallParityPosition, bitAt_setBit C _ _ _ (one_le_nBits K) (by omega) h1,
    if_neg (by rw [nBits_eq]; omega)]

theorem protectedParity_congr {K : Nat} {C C' : BitSeq}
    (h : ∀ p, 1 ≤ p → p ≤ K + pSec K → bitAt C p = bitAt C' p) : protectedParity K C = protectedParity K C' := by
  refine xorOver_congr fun b hb => ?_
  obtain ⟨h1, h2⟩ := mem_positions.1 hb
  exact h b h1 (by rw [nBits_eq] at h2; omega)

/-- Data bit `j` stands at `dataPositions[j]` (41_encode.md R132). -/
theorem bitAt_hammingEncode_data {K : Nat} {D : BitSeq} (hD : D.length = K) (j : Nat) (hj : j < K) :
    bitAt (hammingEncode K D) ((dataPositions K)[j]'(by simpa using hj)) = D[j] := by
  have hmem : (dataPositions K)[j]'(by simpa using hj) ∈ dataPositions K := List.getElem_mem _
  obtain ⟨⟨h1, h2⟩, h3⟩ := mem_dataPositions.1 hmem
  rw [hammingEncode, bitAt_placeOverall_protected (by simp) h1 h2, bitAt_placeChecks_other (by simp) h1 h3,
    bitAt_placeData_data hD j hj]

/-- Check bit `i` is the parity of the other positions it covers (41_encode.md R133). -/
theorem bitAt_hammingEncode_check {K i : Nat} (D : BitSeq) (hi : i < pSec K) :
    bitAt (hammingEncode K D) (2 ^ i) = checkBit K i (hammingEncode K D) := by
  rw [hammingEncode, bitAt_placeOverall_protected (by simp) Nat.one_le_two_pow (two_pow_le_of_lt_pSec hi),
    bitAt_placeChecks_check (by simp) hi]
  refine checkBit_congr fun p h1 h2 h3 => ?_
  rw [bitAt_placeOverall_protected (by simp) h1 h2, bitAt_placeChecks_other (by simp) h1 h3]

/-- The bit at `N` is the parity of all the others (41_encode.md R134). -/
theorem bitAt_hammingEncode_overall (K : Nat) (D : BitSeq) :
    bitAt (hammingEncode K D) (nBits K) = protectedParity K (hammingEncode K D) := by
  rw [hammingEncode]
  conv_lhs => rw [placeOverall, overallParityPosition,
    bitAt_setBit _ _ _ _ (one_le_nBits K) (by simp) (one_le_nBits K), if_pos rfl]
  exact protectedParity_congr fun p h1 h2 => (bitAt_placeOverall_protected (by simp) h1 h2).symm

end Sys2Proof.Machine
end

