-- ==== Sys2Proof/Laws/State.lean ====
section
/-! SUPPORT. Laws/State.lean: one lemma per field per operation on the state, true by rfl. -/

namespace Sys2Proof.Machine

variable (s : State) (op : BitVec 2) (r : Response s.cfg) (p : PortIn s.cfg) (c : Config)

@[simp] theorem acceptEdge_cfg : (acceptEdge s op r).cfg = s.cfg := rfl
@[simp] theorem acceptEdge_inputs : (acceptEdge s op r).inputs = s.inputs := rfl
@[simp] theorem acceptEdge_valid : (acceptEdge s op r).rsp.valid = true := rfl
@[simp] theorem acceptEdge_op : (acceptEdge s op r).rsp.op = op := rfl
@[simp] theorem acceptEdge_status : (acceptEdge s op r).rsp.status = r.status := rfl
@[simp] theorem acceptEdge_cw : (acceptEdge s op r).rsp.cw = r.cw := rfl
@[simp] theorem acceptEdge_data : (acceptEdge s op r).rsp.data = r.data := rfl
@[simp] theorem acceptEdge_syndrome : (acceptEdge s op r).rsp.syndrome = r.syndrome := rfl
@[simp] theorem acceptEdge_ovpOk : (acceptEdge s op r).rsp.ovpOk = r.ovpOk := rfl
@[simp] theorem acceptEdge_cls : (acceptEdge s op r).rsp.cls = r.cls := rfl
@[simp] theorem acceptEdge_reliable : (acceptEdge s op r).rsp.reliable = r.reliable := rfl
@[simp] theorem acceptEdge_flipPos : (acceptEdge s op r).rsp.flipPos = r.flipPos := rfl

@[simp] theorem idleEdge_cfg : (idleEdge s).cfg = s.cfg := rfl
@[simp] theorem idleEdge_inputs : (idleEdge s).inputs = s.inputs := rfl
@[simp] theorem idleEdge_valid : (idleEdge s).rsp.valid = false := rfl
@[simp] theorem idleEdge_op : (idleEdge s).rsp.op = s.rsp.op := rfl
@[simp] theorem idleEdge_status : (idleEdge s).rsp.status = s.rsp.status := rfl
@[simp] theorem idleEdge_cw : (idleEdge s).rsp.cw = s.rsp.cw := rfl
@[simp] theorem idleEdge_data : (idleEdge s).rsp.data = s.rsp.data := rfl
@[simp] theorem idleEdge_syndrome : (idleEdge s).rsp.syndrome = s.rsp.syndrome := rfl
@[simp] theorem idleEdge_ovpOk : (idleEdge s).rsp.ovpOk = s.rsp.ovpOk := rfl
@[simp] theorem idleEdge_cls : (idleEdge s).rsp.cls = s.rsp.cls := rfl
@[simp] theorem idleEdge_reliable : (idleEdge s).rsp.reliable = s.rsp.reliable := rfl
@[simp] theorem idleEdge_flipPos : (idleEdge s).rsp.flipPos = s.rsp.flipPos := rfl

@[simp] theorem resetEdge_cfg : (resetEdge s).cfg = s.cfg := rfl
@[simp] theorem resetEdge_inputs : (resetEdge s).inputs = s.inputs := rfl
@[simp] theorem resetEdge_rsp : (resetEdge s).rsp = Response.resetValue s.cfg := rfl

end Sys2Proof.Machine
end

