-- ==== Sys2Proof/Laws/Ops.lean ====
section
/-! SUPPORT. Laws/Ops.lean: what the shared operations can do, once each (10_state.md R26). -/

namespace Sys2Proof.Machine

@[simp] theorem portsNow_cons (c : Config) (p : PortIn c) (ps : List (PortIn c)) (r : Response c) :
    portsNow { cfg := c, inputs := p :: ps, rsp := r } = p := rfl

@[simp] theorem portsNow_nil (c : Config) (r : Response c) :
    portsNow { cfg := c, inputs := [], rsp := r } = nopCycle c := rfl

theorem takeInputs_presentFirst (s : State) (p : PortIn s.cfg) : takeInputs (presentFirst s p) = s := rfl

theorem portsNow_presentFirst (s : State) (p : PortIn s.cfg) : portsNow (presentFirst s p) = p := rfl

/-- Everything a rising edge can do: reset, accept, or idle (10_state.md R26). -/
theorem clockEdge_cases (s : State) (p : PortIn s.cfg) (accepted : Host.Outcome State Fault Refusal) :
    (p.rst = true ∧ clockEdge s p accepted = .next (resetEdge s)) ∨
    (p.rst = false ∧ p.reqValid = true ∧ clockEdge s p accepted = accepted) ∨
    (p.rst = false ∧ p.reqValid = false ∧ clockEdge s p accepted = .next (idleEdge s)) := by
  cases hr : p.rst <;> cases hv : p.reqValid <;> simp [clockEdge, hr, hv]

end Sys2Proof.Machine
end

