-- ==== Sys2Proof/Laws/PerInstr.lean ====
section
/-! SUPPORT. Laws/PerInstr.lean: the per-instruction family `OpField`: the top two bits of an instruction's word are the
code of its row (30_encoding.md R70, R71), whatever its operand. -/

namespace Sys2Proof.Laws.OpField

/-- The `op` field of the word of `i` is the code of `i`, on an instance of every width. -/
def Statement (i : Instr) : Prop := ∀ K : Nat, opField K (encodeWord K i) = opCode i

theorem encode (data : BitSeq) : Statement (.encode data) := fun K => opField_packReq K _ _ _

theorem evaluate (cw : BitSeq) : Statement (.evaluate cw) := fun K => opField_packReq K _ _ _

theorem decode (cw : BitSeq) : Statement (.decode cw) := fun K => opField_packReq K _ _ _

theorem rsvd : Statement .rsvd := fun K => opField_packReq K _ _ _

end Sys2Proof.Laws.OpField
end

