-- ==== Sys2Proof/Laws/Step.lean ====
section
/-! SUPPORT. Laws/Step.lean: what an accepted request and a step can do, said once (10_state.md R26). -/

namespace Sys2Proof.Machine

/-- The response record of an instruction (30_encoding.md R72). -/
def resultOf (c : Config) : Instr → Response c
  | .encode data => encodeResult c data
  | .evaluate cw => evaluateResult c cw
  | .decode cw => decodeResult c cw
  | .rsvd => reservedResult c

/-- A well-formed instruction writes its response and nothing else. -/
theorem exec_of_wellFormed {i : Instr} {s : State} (h : wellFormed s.cfg.K i = true) :
    exec i s = .next (acceptEdge s (opCode i) (resultOf s.cfg i)) := by
  cases i <;> simp_all [wellFormed, exec, execEncode, execEvaluate, execDecode, execRsvd, resultOf, opCode]

/-- An instruction that answers a next state was well-formed. -/
theorem wellFormed_of_exec {i : Instr} {s t : State} (h : exec i s = .next t) : wellFormed s.cfg.K i = true := by
  cases i <;> simp_all [wellFormed, exec, execEncode, execEvaluate, execDecode, execRsvd] <;>
    (split at h <;> simp_all)

/-- Everything a step can do (10_state.md R26): reset, accept the request on the ports, or idle. -/
theorem step_cases (s : State) :
    ((portsNow s).rst = true ∧ step s = .next (resetEdge (takeInputs s))) ∨
    ((portsNow s).rst = false ∧ (portsNow s).reqValid = true ∧
      step s = .next (acceptEdge (takeInputs s) (portsNow s).reqOp
        (resultOf s.cfg (requested s.cfg (portsNow s))))) ∨
    ((portsNow s).rst = false ∧ (portsNow s).reqValid = false ∧ step s = .next (idleEdge (takeInputs s))) := by
  rcases clockEdge_cases (takeInputs s) (portsNow s) (exec (requested s.cfg (portsNow s)) (takeInputs s)) with
    h | ⟨h1, h2, h3⟩ | h
  · exact .inl h
  · refine .inr (.inl ⟨h1, h2, ?_⟩)
    rw [step, h3, requested, exec_of_wellFormed (s := takeInputs s) (wellFormed_decodeReq _ _ _ _),
      opCode_decodeReq]
  · exact .inr (.inr h)

theorem runEdges_succ_of_next {s t : State} (h : step s = .next t) (k : Nat) :
    runEdges (k + 1) s = runEdges k t := by simp only [runEdges, h]

end Sys2Proof.Machine
end

