-- ==== Sys2Proof/Tests/Slice0.lean ====
section
/-! SUPPORT. Tests/Slice0.lean: the model against vectors of 95_test_vectors.md (each test names its vector), the checks of
WellFormed against ill-formed terms, words written out from 30_encoding.md R70, and for every statement with hypotheses a
witness that meets them. The expected values are the spec's, never the model's. -/

namespace Sys2Proof.Tests

open Sys2Proof.Machine

/-! ## Helpers -/

/-- The instance of width 8. -/
abbrev c8 : Config := Config.default

/-- `D` of V-L1-2, `11010010`. -/
abbrev d8 : BitSeq := [true, true, false, true, false, false, true, false]

/-- `C` of V-L1-2, `0110101100100`. -/
abbrev cw8 : BitSeq := [false, true, true, false, true, false, true, true, false, false, true, false, false]

/-- A register with no field 0, as a power-up can leave it. -/
def dirty : Response c8 :=
  { valid := true, op := 3, status := 3, cw := 0x1FFF, data := 0xFF, syndrome := 0xF,
    ovpOk := true, cls := 7, reliable := true, flipPos := 0xF }

/-- The instance of width 8 with a dirty register and the given cycles to come. -/
def dirtyState (ps : List (PortIn c8)) : State := { cfg := c8, inputs := ps, rsp := dirty }

/-- A register as the tables of 95_test_vectors.md list it: valid, op, status, cw, data, syndrome, ovp_ok, class, reliable,
flip_pos. -/
def row {c : Config} (r : Response c) : List Nat :=
  [r.valid.toNat, r.op.toNat, r.status.toNat, r.cw.toNat, r.data.toNat, r.syndrome.toNat,
    r.ovpOk.toNat, r.cls.toNat, r.reliable.toNat, r.flipPos.toNat]

/-- The row of the register after an outcome, where it is a next state. -/
def rowAfter : Host.Outcome State Fault Refusal → Option (List Nat)
  | .next s => some (row s.rsp)
  | .fault _ => none
  | .refused _ => none

/-- Whether an outcome is the given next state. -/
def isNext (o : Host.Outcome State Fault Refusal) (t : State) : Bool :=
  match o with
  | .next s => decide (s = t)
  | .fault _ => false
  | .refused _ => false

/-! ## WellFormed refuses an ill-formed term for each check (30_encoding.md R73) -/

theorem test_wellFormed_refuses_short_data : wellFormed 8 (.encode [true, true, false, true, false, false, true]) = false := by
  decide

theorem test_wellFormed_refuses_long_data : wellFormed 8 (.encode (true :: d8)) = false := by decide

theorem test_wellFormed_refuses_evaluate_of_data : wellFormed 8 (.evaluate d8) = false := by decide

theorem test_wellFormed_refuses_decode_of_long_codeword : wellFormed 8 (.decode (true :: cw8)) = false := by decide

theorem test_wellFormed_accepts :
    wellFormed 8 (.encode d8) && wellFormed 8 (.evaluate cw8) && wellFormed 8 (.decode cw8) && wellFormed 8 .rsvd := by
  decide

/-! ## Decoding, from words written out bit by bit (30_encoding.md R70): op, then cw, then data -/

theorem test_decode_encode_word : decodeWord 8 0b00_0000000000000_11010010#23 = .encode d8 := by decide

theorem test_decode_evaluate_word : decodeWord 8 0b01_0110101100100_00000000#23 = .evaluate cw8 := by decide

theorem test_decode_decode_word : decodeWord 8 0b10_0110101100100_00000000#23 = .decode cw8 := by decide

theorem test_decode_rsvd_word : decodeWord 8 0b11_0000000000000_00000000#23 = .rsvd := by decide

/-- The fields a row does not read are all ones here (30_encoding.md R71). -/
theorem test_decode_ignores_unread_fields :
    decodeWord 8 0b00_1111111111111_11010010#23 = .encode d8 ∧
    decodeWord 8 0b01_0110101100100_11111111#23 = .evaluate cw8 ∧
    decodeWord 8 0b10_0110101100100_11111111#23 = .decode cw8 ∧
    decodeWord 8 0b11_1111111111111_11111111#23 = .rsvd := by decide

/-- The words of PROG-1 and R77. -/
theorem test_encode_words :
    (encodeWord 8 (.encode d8)).toNat = 0x0000D2 ∧ (encodeWord 8 (.decode cw8)).toNat = 0x4D6400 ∧
    (encodeWord 8 (.evaluate cw8)).toNat = 0x2D6400 ∧ (encodeWord 8 .rsvd).toNat = 0x600000 := by decide

/-- The opcode table's four `match` values. -/
theorem test_table_words :
    [0, 1, 2, 3].map (fun w => (decodeTableWord 8 w).map opCode) = [some 0, some 1, some 2, some 3] := by decide

theorem test_table_word_without_op_field : decodeTableWord 1 0 = none := by decide

/-! ## The instructions, at most two vectors each -/

/-- V-ENC-25, from a dirty register. -/
theorem test_encode_scenario :
    rowAfter (step (dirtyState [requestCycle c8 0 0x1FFF 0xD2])) = some [1, 0, 0, 0x0D64, 0, 0, 0, 0, 0, 0] := by decide

/-- V-ENC-28, a perfect width. -/
theorem test_encode_perfect_width :
    (encodeResult { K := 11, one_le_K := by decide } (unpackSeq 0x401#11)).cw.toNat = 0x3102 := by decide

/-- V-EVAL-20: a syndrome above `N-1`. -/
theorem test_evaluate_three_flips :
    rowAfter (step (dirtyState [requestCycle c8 1 0b1111101000100 0xFF])) = some [1, 1, 0, 0, 0, 13, 0, 0, 0, 0] := by
  decide

/-- V-EVAL-17: flips at 12 and 13; position 13 is in no syndrome bit. -/
theorem test_evaluate_last_two_positions :
    rowAfter (step (dirtyState [requestCycle c8 1 0b0110101100111 0])) = some [1, 1, 0, 0, 0, 12, 1, 0, 0, 0] := by decide

/-- V-DEC-6 and PROG-1 cycle 4. -/
theorem test_decode_corrects_position_five :
    rowAfter (step (dirtyState [requestCycle c8 2 0b0110001100100 0xFF])) =
      some [1, 2, 0, 0b0110101100100, 0b11010010, 5, 0, 2, 1, 5] := by decide

/-- V-DEC-20 and PROG-2 cycle 3: the anomaly. -/
theorem test_decode_anomaly :
    rowAfter (step (dirtyState [requestCycle c8 2 0b1111101000100 0])) =
      some [1, 2, 0, 0b1111101000100, 0b11010010, 13, 0, 4, 0, 0] := by decide

/-- V-RSVD-1. -/
theorem test_reserved :
    rowAfter (step (dirtyState [requestCycle c8 3 0x1ABC 0x5A])) = some [1, 3, 1, 0, 0, 0, 0, 0, 0, 0] := by decide

/-- PROG-2 cycle 5: `rst` wins over a presented ENCODE. -/
theorem test_reset_wins :
    rowAfter (step (dirtyState [{ requestCycle c8 0 0 0xFF with rst := true }])) =
      some [0, 0, 0, 0, 0, 0, 0, 0, 0, 0] := by decide

/-- R26: an idle cycle clears `rsp_valid` and holds the rest. -/
theorem test_idle_holds :
    rowAfter (step (dirtyState [nopCycle c8])) = some [0, 3, 3, 0x1FFF, 0xFF, 0xF, 1, 7, 1, 0xF] := by decide

/-- The interface's word runs as the first request after reset, for each row. -/
theorem test_fetch_word_runs :
    [0, 1, 2, 3].map (fun w => rowAfter (step (State.reset.withFetchWord 8 w))) =
      [some [1, 0, 0, 0, 0, 0, 0, 0, 0, 0], some [1, 1, 0, 0, 0, 0, 1, 0, 0, 0],
        some [1, 2, 0, 0, 0, 0, 1, 0, 1, 0], some [1, 3, 1, 0, 0, 0, 0, 0, 0, 0]] := by decide

/-! ## The deriver and the constant outputs -/

/-- V-DER-8 and V-DER-17. -/
theorem test_derive :
    (pSec 8, nBits 8, wPos 8, headroom 8) = (4, 13, 4, 3) ∧ dataPositions 8 = [3, 5, 6, 7, 9, 10, 11, 12] ∧
    secParityPositions 8 = [1, 2, 4, 8] ∧ (pSec 26, nBits 26, wPos 26, headroom 26) = (5, 32, 6, 0) := by decide

/-- V-DER-26 and V-DER-27. -/
theorem test_derive_refuses : derive 0 = .error (.invalidWidth 0) ∧ derive (-3) = .error (.invalidWidth (-3)) := by
  decide

/-- V-MASK-1. -/
theorem test_masks_of_width_one :
    ((positionMask 1 (secParityPositions 1)).toNat, (positionMask 1 (dataPositions 1)).toNat,
      (positionMask 1 [overallParityPosition 1]).toNat) = (0b1100, 0b0010, 0b0001) := by decide

/-- R110's example, and positions outside `[1, N]`. -/
theorem test_roles :
    [0, 1, 3, 8, 12, 13, 14].map (role 8) =
      [none, some (.sec 0), some (.data 0), some (.sec 3), some (.data 7), some .ovp, none] := by decide

/-! ## The host side -/

/-- V-HOST-1, V-HOST-3 and V-HOST-4. -/
theorem test_adapter_refuses :
    toPort 8 ['1', '1', '0', '1', '0', '0', '1'] = .error (.wrongLength 7 8) ∧
    toPort 8 ['1', '1', '0', '1', 'x', '0', '1', '0', '1'] = .error (.wrongLength 9 8) ∧
    toPort 8 ['1', '1', '0', '1', 'x', '0', '1', '0'] = .error (.invalidSymbol 4) := by decide

/-- Draws at the two ends of `[1, 13]`. -/
abbrev lastDraw : PositionDraw 8 := { p := 13, one_le := by decide, le_n := by decide }

abbrev endsDraw : PairDraw 8 :=
  { p1 := 1, p2 := 13, one_le1 := by decide, le_n1 := by decide, one_le2 := by decide, le_n2 := by decide,
    distinct := by decide }

/-- V-HOST-5, V-HOST-6, V-HOST-7, V-HOST-12 and V-HOST-13. -/
theorem test_inject_single :
    injectSingle 8 (charsOfSeq cw8) (some 0) lastDraw = .error (.positionOutOfRange [0]) ∧
    injectSingle 8 (charsOfSeq cw8) (some 14) lastDraw = .error (.positionOutOfRange [14]) ∧
    (injectSingle 8 (charsOfSeq cw8) (some 13) lastDraw).map (fun r => (charsOfSeq r.1, r.2)) =
      .ok (['0', '1', '1', '0', '1', '0', '1', '1', '0', '0', '1', '0', '1'], 13) ∧
    injectSingle 8 (charsOfSeq cw8) none lastDraw = injectSingle 8 (charsOfSeq cw8) (some 13) lastDraw ∧
    injectSingle 8 (charsOfSeq (cw8.take 12)) (some 5) lastDraw = .error (.wrongLength 12 13) := by decide

/-- V-HOST-8 to V-HOST-11. -/
theorem test_inject_double :
    injectDouble 8 (charsOfSeq cw8) (some 3) (some 3) endsDraw = .error (.duplicatePosition 3) ∧
    injectDouble 8 (charsOfSeq cw8) (some 14) (some 14) endsDraw = .error (.positionOutOfRange [14, 14]) ∧
    (injectDouble 8 (charsOfSeq cw8) (some 3) (some 9) endsDraw).map (fun r => (charsOfSeq r.1, r.2)) =
      .ok (['0', '1', '0', '0', '1', '0', '1', '1', '1', '0', '1', '0', '0'], 3, 9) ∧
    injectDouble 8 (charsOfSeq cw8) (some 3) none endsDraw = .error (.incompletePositionPair 3) := by decide

/-- A program of R76 with a comment, small letters and a hex operand (R77's DECODE word in PROG-1 cycle 4). -/
theorem test_assemble :
    (assemble ['.', 'k', ' ', '8', '\n', 'r', 'e', 's', 'e', 't', ' ', ';', 'c', '\n', '\n',
      'd', 'e', 'c', 'o', 'd', 'e', ' ', '0', 'x', '0', 'C', '6', '4']).map
        (fun a => a.cycles.map (fun p => listingRow a.cfg p)) =
      .ok [(true, false, ['-']), (false, true, ['0', 'x', '4', 'C', '6', '4', '0', '0'])] := by decide

/-- R100: every width below 1 is InvalidWidth, also in a `.k` line; a text that is no numeral is refused by name. -/
theorem test_width_directive :
    assemble ['.', 'k', ' ', '-', '3'] = .error (.host (.invalidWidth (-3))) ∧
    assemble ['.', 'k', ' ', '0'] = .error (.host (.invalidWidth 0)) ∧
    assemble ['.', 'k', ' ', '-'] = .error .noWidth := by decide

/-- PROG-2 cycle 5: the listing of a cycle with `rst = 1` and a request shows the word that was driven. -/
theorem test_listing_of_a_lost_request :
    listingRow c8 { requestCycle c8 0 0 0xFF with rst := true } =
      (true, true, ['0', 'x', '0', '0', '0', '0', 'F', 'F']) := by decide

/-! ## Witnesses: for every statement with hypotheses, operands that meet them -/

theorem witness_DeriveRefusesOnlyWidthsBelowOne : ((0 : Int) < 1 ∧ (-3 : Int) < 1) ∧ 1 ≤ (1 : Nat) := by decide

/-- Both ends of every range of R111's table. -/
theorem witness_CheckBitCountByRange :
    [1, 2, 4, 5, 11, 12, 26, 27, 57, 58, 120, 121, 247].map (fun K => (pSec K, nBits K)) =
      [(2, 4), (3, 6), (3, 8), (4, 10), (4, 16), (5, 18), (5, 32), (6, 34), (6, 64), (7, 66), (7, 128),
        (8, 130), (8, 256)] := by decide

theorem witness_CodeSizeBounds : 1 ≤ 8 ∧ (1 ≤ 12 ∧ 12 ≤ nBits 8 - 1) ∧ zextTo (pSec 8) 12 = zextTo (pSec 8) 12 := by decide

theorem witness_PositionRoles : role 8 12 = some (.data 7) ∧ role 8 3 = some (.data 0) := by decide

theorem witness_ConstantOutputs :
    (1 ≤ 13 ∧ 13 ≤ nBits c8.K) ∧ isNext (step State.reset) State.reset = true := by decide

theorem witness_EncodeReportsTheCodeword :
    d8.length = State.reset.cfg.K ∧ ((dataPositions 8)[7]? = some 12 ∧ d8[7]? = some false) ∧ 3 < pSec 8 := by decide

theorem witness_CheckBitsInAnyOrder :
    (3 : Nat) ≠ 2 ∧ cw8.length = nBits 8 ∧ 3 < pSec 8 ∧ [3, 1, 0, 2].Perm (List.range (pSec 8)) ∧
    (∀ p ∈ dataPositions 8, bitAt cw8 p = bitAt (flipBit cw8 8) p) := by decide

theorem witness_EncodeIsLinear : d8.length = 8 ∧ (d8.map not).length = 8 := by decide

theorem witness_EncodedWordsAreConsistent : d8.length = 8 ∧ 3 < pSec 8 := by decide

theorem witness_EvaluateReportsSyndromeAndParity : cw8.length = nBits State.reset.cfg.K ∧ 3 < pSec State.reset.cfg.K := by
  decide

theorem witness_EvaluateConstantWords : nBits 4 % 2 = 0 ∧ 0 < pSec 4 := by decide

theorem witness_ErrorAlgebra :
    d8.length = 8 ∧ [1, 12, 13].Nodup ∧ (∀ p ∈ [1, 12, 13], 1 ≤ p ∧ p ≤ nBits 8) ∧ (1 ≤ 12 ∧ 12 ≤ nBits 8 - 1) ∧
    (1 : Nat) ≠ 12 := by decide

/-- A received word in each row of R193's table, with the rows' boundary `N-1` from both sides: V-DEC-1, V-DEC-14,
V-DEC-13 (syndrome `N-1`), V-DEC-20 (syndrome `N`) and V-DEC-19 (syndrome `N`, parity right). -/
theorem witness_DecodeClassifiesAndCorrects :
    [0b0110101100100#13, 0b0110101100101#13, 0b0110101100110#13, 0b1111101000100#13, 0b1110101100110#13].map
      (fun w => hammingEvaluate 8 (unpackSeq w)) = [(0, true), (0, false), (12, false), (13, false), (13, true)] ∧
    cw8.length = nBits State.reset.cfg.K ∧ (dataPositions 8)[0]? = some 3 := by decide

theorem witness_SecDedGuarantee :
    1 ≤ 8 ∧ d8.length = 8 ∧ (1 ≤ 1 ∧ 1 ≤ nBits 8) ∧ (1 ≤ 13 ∧ 13 ≤ nBits 8) ∧ (1 : Nat) ≠ 13 := by decide

theorem witness_AnomalyReachableExactlyWithHeadroom :
    (0 < headroom 8 ∧ headroom 1 = 0) ∧ d8.length = 8 ∧ [1, 4, 8].Nodup ∧
    (∀ x ∈ [1, 4, 8], 1 ≤ x ∧ x ≤ nBits 8 - 1) ∧ nBits 8 - 1 < 1 ^^^ 4 ^^^ 8 := by decide

theorem witness_MoreFlipsCarryNoGuarantee : d8.length = 8 := by decide

theorem witness_WrongLengthOperandRefused : cw8.length ≠ State.reset.cfg.K ∧ d8.length ≠ nBits State.reset.cfg.K := by
  decide

theorem witness_StepRunsTheRequest :
    (requestCycle c8 3 0 0).rst = false ∧ (requestCycle c8 3 0 0).reqValid = true := by decide

theorem witness_CycleStep :
    (resetCycle c8).rst = true ∧ ((requestCycle c8 2 0 0).rst = false ∧ (requestCycle c8 2 0 0).reqValid = true) ∧
    ((nopCycle c8).rst = false ∧ (nopCycle c8).reqValid = false) := by decide

theorem witness_ResetZeroesTheRegister : ({ requestCycle c8 0 0 0xFF with rst := true } : PortIn c8).rst = true := by
  decide

theorem witness_ResetHoldsFromEveryPowerUp :
    [resetCycle c8] ≠ [] ∧ ∀ p ∈ [resetCycle c8, { requestCycle c8 0 0 0 with rst := true }], p.rst = true := by decide

theorem witness_ResponseHoldsWhileIdle :
    (requestCycle c8 0 0 0).reqValid = true ∧ (∀ q ∈ [nopCycle c8, nopCycle c8], q.rst = false ∧ q.reqValid = false) ∧
    (∀ q ∈ ([] : List (PortIn c8)), q.rst = false ∧ q.reqValid = false) := by decide

theorem witness_EncodeThenDecodeAtThePorts :
    0 < nBits c8.K ∧ (3 < 9 ∧ 9 < nBits c8.K) ∧ BitVec.twoPow (nBits c8.K) 0 ≠ 0 := by decide

/-- A DECODE's register (V-DEC-6), which is legal and reports a codeword. -/
def corrected : State :=
  { cfg := c8, inputs := [nopCycle c8], rsp :=
    { valid := true, op := 2, status := 0, cw := 0x0D64, data := 0xD2, syndrome := 5,
      ovpOk := false, cls := 2, reliable := true, flipPos := 5 } }

theorem witness_EveryStepKeepsTheRegisterLegal :
    corrected.Legal ∧ isNext (step corrected) (idleEdge (takeInputs corrected)) = true :=
  ⟨⟨by decide, by decide, by decide, by decide, by decide, by decide, by decide⟩, by decide⟩

theorem witness_EveryStepReportsCodewords :
    corrected.ReportsCodeword ∧ isNext (step corrected) (idleEdge (takeInputs corrected)) = true :=
  ⟨fun _ => by unfold isCodeword; decide, by decide⟩

theorem witness_WritingEdgeMakesTheRegisterLegal :
    (portsNow (dirtyState [requestCycle c8 3 0 0])).reqValid = true ∧
    isNext (step (dirtyState [requestCycle c8 3 0 0])) (acceptEdge (dirtyState []) 3 (reservedResult c8)) = true := by decide

theorem witness_DecodeOfEncode : wellFormed 8 (.decode cw8) = true ∧ wellFormed 1 (.encode [true]) = true := by decide

theorem witness_OnlyTheLengthCanBeWrong :
    (d8 ++ cw8).length ≠ 2 + nBits 8 + 8 ∧ (true :: false :: (cw8 ++ d8)).length = 2 + nBits 8 + 8 := by
  have h : nBits 8 = 13 := by decide
  simp [h]

theorem witness_AdapterInbound :
    ['1', '0', '1'].length ≠ 8 ∧ (['1', '0', '1'].length = 3 ∧ ∀ ch ∈ ['1', '0', '1'], ch = '0' ∨ ch = '1') ∧
    (['1', '2', '1'][1]? = some '2' ∧ ∀ j < 1, ['1', '2', '1'][j]? = some '0' ∨ ['1', '2', '1'][j]? = some '1') := by
  simp

theorem witness_AdapterOutbound : toPort 3 ['1', '0', '1'] = .ok 5#3 := by decide

theorem witness_InjectSingleFlipsOnePosition :
    ((0 : Int) < 1 ∧ (nBits 8 : Int) < 14) ∧ cw8.length = nBits 8 ∧ (1 ≤ 13 ∧ 13 ≤ nBits 8) ∧
    (charsOfSeq d8).length ≠ nBits 8 := by decide

theorem witness_InjectDoubleFlipsTwoPositions :
    cw8.length = nBits 8 ∧ (1 ≤ 1 ∧ 13 ≤ nBits 8) ∧ (1 : Nat) ≠ 13 ∧ ((1 : Int) ≤ 13 ∧ (13 : Int) ≤ nBits 8) ∧
    ¬ ((1 ≤ (3 : Int) ∧ (3 : Int) ≤ nBits 8) ∧ (1 ≤ (14 : Int) ∧ (14 : Int) ≤ nBits 8)) := by decide

theorem witness_EveryInjectionIsHandled : 1 ≤ 8 ∧ d8.length = 8 ∧ lastDraw.p = 13 ∧ endsDraw.p2 = 13 := by decide

theorem witness_RefusedOperationPresentsNothing :
    ['1'].length ≠ State.reset.cfg.K ∧ ['1'].length ≠ nBits State.reset.cfg.K ∧ d8.length = State.reset.cfg.K := by decide

theorem witness_AssembledLinesPresentTheInstruction :
    (wellFormed c8.K (.evaluate cw8) = true ∧ wellFormed c8.K .rsvd = true) ∧ (requestCycle c8 1 0 0).reqValid = true ∧
    (resetCycle c8).reqValid = false := by
  decide

theorem witness_WidthDirectiveNamesTheInstance :
    (digitsValue 10 decimalValue ['0', '8'] = some 8 ∧ 1 ≤ 8) ∧
    (digitsValue 10 decimalValue ['0'] = some 0 ∧ 0 < 1) ∧ (digitsValue 10 decimalValue ['1'] = some 1 ∧ 1 ≤ 1) := by decide

theorem witness_ReservedReportsIllegalOp :
    (requestCycle c8 2 0x1FFF 0).reqValid = true ∧ ({ requestCycle c8 0 0 0 with rst := true } : PortIn c8).reqValid = true := by
  decide

theorem witness_HexOperandReadsBack : 1 ≤ (1 : Nat) := by decide

theorem witness_InstancesShareNothing :
    (0 : Nat) ≠ 1 ∧ [State.reset, State.resetOf { K := 1, one_le_K := by decide }][1]?.isSome = true := by decide

end Sys2Proof.Tests
end

namespace Sys2Proof.Machine

/-! ## The rules of a step, one per branch of the update rule (10_state.md R26) -/

theorem step_of_rst {s : State} (hrst : (portsNow s).rst = true) : step s = .next (resetEdge (takeInputs s)) := by
  simp [step, clockEdge, hrst]

theorem step_of_request {s : State} (hrst : (portsNow s).rst = false) (hreq : (portsNow s).reqValid = true) :
    step s = exec (requested s.cfg (portsNow s)) (takeInputs s) := by
  simp [step, clockEdge, hrst, hreq]

theorem step_of_idle {s : State} (hrst : (portsNow s).rst = false) (hreq : (portsNow s).reqValid = false) :
    step s = .next (idleEdge (takeInputs s)) := by
  simp [step, clockEdge, hrst, hreq]

/-- Running the instruction on the request ports answers with its result under the presented code. -/
theorem exec_requested (s : State) (p : PortIn s.cfg) :
    exec (requested s.cfg p) s = .next (acceptEdge s p.reqOp (resultOf s.cfg (requested s.cfg p))) := by
  rw [requested, exec_of_wellFormed (wellFormed_decodeReq ..), opCode_decodeReq]

/-- Every next state is that of a reset edge, of an accepting edge for some instruction, or of an idle edge. -/
theorem eq_edge_of_step_eq_next {s t : State} (h : step s = .next t) :
    t = resetEdge (takeInputs s) ∨ (∃ i, t = acceptEdge (takeInputs s) (opCode i) (resultOf s.cfg i)) ∨
      t = idleEdge (takeInputs s) := by
  rcases step_cases s with ⟨-, hstep⟩ | ⟨-, -, hstep⟩ | ⟨-, -, hstep⟩
  all_goals
    rw [hstep, Host.Outcome.next.injEq] at h
    subst h
  · exact .inl rfl
  · refine .inr (.inl ⟨requested s.cfg (portsNow s), ?_⟩)
    rw [requested, opCode_decodeReq]
  · exact .inr (.inr rfl)

/-- The block never stops (60_exceptions.md R260). -/
theorem exists_step_eq_next (s : State) : ∃ t, step s = .next t := by
  rcases step_cases s with ⟨-, h⟩ | ⟨-, -, h⟩ | ⟨-, -, h⟩ <;> exact ⟨_, h⟩

theorem cfg_eq_of_step_eq_next {s t : State} (h : step s = .next t) : t.cfg = s.cfg := by
  rcases eq_edge_of_step_eq_next h with rfl | ⟨i, rfl⟩ | rfl <;> rfl

/-! ## Legal registers: the three edges keep them (10_state.md R25) -/

theorem legal_resetValue (c : Config) : (Response.resetValue c).Legal := by
  constructor <;> simp [Response.resetValue, statusOk]

/-- Legality does not read `rsp_valid`. -/
theorem Response.Legal.with_valid {c : Config} {r : Response c} (h : r.Legal) (b : Bool) :
    { r with valid := b }.Legal := by
  obtain ⟨hstatus, hdecode, hchecked, hcw, hcls, hreliable, hflip⟩ := h
  exact ⟨hstatus, hdecode, hchecked, hcw, hcls, hreliable, hflip⟩

@[simp] theorem toNat_decodeResult_syndrome (c : Config) (C : BitSeq) :
    (decodeResult c C).syndrome.toNat = syndrome c.K C := toNat_zextTo (syndrome_lt c.K C)

/-- `rsp_flip_pos` is wide enough for every flip position (43_decode.md R193). -/
@[simp] theorem toNat_decodeResult_flipPos (c : Config) (C : BitSeq) :
    (decodeResult c C).flipPos.toNat =
      flipPosition c.K (syndrome c.K C) (classify c.K (syndrome c.K C) (overallParityOk c.K C)) :=
  toNat_zextTo ((flipPosition_le ..).trans_lt (nBits_lt_two_pow_wPos c.K))

@[simp] theorem decodeResult_status (c : Config) (C : BitSeq) : (decodeResult c C).status = statusOk := rfl

@[simp] theorem decodeResult_ovpOk (c : Config) (C : BitSeq) :
    (decodeResult c C).ovpOk = overallParityOk c.K C := rfl

@[simp] theorem decodeResult_cls (c : Config) (C : BitSeq) : (decodeResult c C).cls =
    classCode (classify c.K (syndrome c.K C) (overallParityOk c.K C)) := rfl

@[simp] theorem decodeResult_reliable (c : Config) (C : BitSeq) : (decodeResult c C).reliable =
    reliableClass (classify c.K (syndrome c.K C) (overallParityOk c.K C)) := rfl

/-- Every instruction leaves a legal register: the rows other than DECODE report zero fields, and a DECODE's class,
reliability and flip position are selected by the syndrome and parity check it reports. -/
theorem legal_acceptEdge (s : State) (i : Instr) : (acceptEdge s (opCode i) (resultOf s.cfg i)).Legal := by
  cases i with
  | encode data => constructor <;> simp [opCode, resultOf, encodeResult, zeroResult]
  | evaluate cw => constructor <;> simp [opCode, resultOf, evaluateResult, zeroResult]
  | decode cw => constructor <;> simp [opCode, resultOf]
  | rsvd => constructor <;> simp [opCode, resultOf, reservedResult, zeroResult]

/-- Settles O29: each of the three edges a step can be leaves a legal register. -/
theorem everyStepKeepsTheRegisterLegal : Obligations.EveryStepKeepsTheRegisterLegal := by
  intro s t hs h
  rcases eq_edge_of_step_eq_next h with rfl | ⟨i, rfl⟩ | rfl
  · exact legal_resetValue s.cfg
  · exact legal_acceptEdge (takeInputs s) i
  · exact Response.Legal.with_valid hs false

/-! ## Position masks on the constant outputs (10_state.md R24) -/

theorem bitAt_map_positions {n p : Nat} (f : Nat → Bool) (h1 : 1 ≤ p) (h2 : p ≤ n) :
    bitAt ((positions 1 n).map f) p = f p := by
  rw [bitAt_eq_getElem _ p h1 (by simpa using h2), List.getElem_map, getElem_positions_one, Nat.sub_add_cancel h1]

theorem portAt_positionMask {K p : Nat} (S : List Nat) (h1 : 1 ≤ p) (h2 : p ≤ nBits K) :
    portAt (positionMask K S) p = decide (p ∈ S) := by
  rw [positionMask, portAt_packSeq _ (by simp) p h1 h2, bitAt_map_positions _ h1 h2, List.contains_eq_mem]

/-- Two port words are equal when they agree at every position. -/
theorem ext_portAt {N : Nat} {v w : BitVec N} (h : ∀ p, 1 ≤ p → p ≤ N → portAt v p = portAt w p) : v = w := by
  refine BitVec.eq_of_getLsbD_eq fun i hi => ?_
  have hp := h (N - i) (by omega) (by omega)
  rwa [portAt, portAt, Nat.sub_sub_self hi.le] at hp

@[simp] theorem portAt_and {N : Nat} (v w : BitVec N) (p : Nat) : portAt (v &&& w) p = (portAt v p && portAt w p) :=
  BitVec.getLsbD_and

@[simp] theorem portAt_or {N : Nat} (v w : BitVec N) (p : Nat) : portAt (v ||| w) p = (portAt v p || portAt w p) :=
  BitVec.getLsbD_or

@[simp] theorem portAt_zero (N p : Nat) : portAt (0#N) p = false := BitVec.getLsbD_zero

theorem portAt_one {N p : Nat} (h1 : 1 ≤ p) (h2 : p ≤ N) : portAt (1#N) p = decide (p = N) := by
  rw [portAt, BitVec.getLsbD_one, Bool.eq_iff_iff]
  simp only [Bool.and_eq_true, decide_eq_true_eq]
  omega

theorem portAt_allOnes {N p : Nat} (h1 : 1 ≤ p) (h2 : p ≤ N) : portAt (BitVec.allOnes N) p = true := by
  rw [portAt, BitVec.getLsbD_allOnes, decide_eq_true_eq]
  omega

theorem positionMask_and_eq_zero {K : Nat} {S T : List Nat} (h : ∀ p ∈ S, p ∉ T) :
    positionMask K S &&& positionMask K T = 0 :=
  ext_portAt fun p h1 h2 => by simpa [portAt_positionMask _ h1 h2] using h p

theorem positionMask_last_eq_one (K : Nat) : positionMask K [nBits K] = 1 :=
  ext_portAt fun p h1 h2 => by simp [portAt_positionMask _ h1 h2, portAt_one h1 h2]

theorem positionMask_or_or_eq_allOnes {K : Nat} {S T U : List Nat}
    (h : ∀ p, 1 ≤ p → p ≤ nBits K → (p ∈ S ∨ p ∈ T) ∨ p ∈ U) :
    positionMask K S ||| positionMask K T ||| positionMask K U = BitVec.allOnes (nBits K) :=
  ext_portAt fun p h1 h2 => by simpa [portAt_positionMask _ h1 h2, portAt_allOnes h1 h2] using h p h1 h2

/-! ## The three sets of positions are a partition of `[1, N]` (40_parameters.md R107) -/

theorem not_mem_dataPositions_of_mem_sec {K p : Nat} (h : p ∈ secParityPositions K) : p ∉ dataPositions K :=
  fun hdata => (mem_dataPositions.1 hdata).2 h

theorem ne_nBits_of_mem_sec {K p : Nat} (h : p ∈ secParityPositions K) : p ≠ nBits K := by
  have := secParity_in_positions h
  rw [nBits_eq]
  omega

theorem ne_nBits_of_mem_data {K p : Nat} (h : p ∈ dataPositions K) : p ≠ nBits K := by
  have := (mem_dataPositions.1 h).1
  rw [nBits_eq]
  omega

theorem mem_sec_or_data_or_last {K p : Nat} (h1 : 1 ≤ p) (h2 : p ≤ nBits K) :
    (p ∈ secParityPositions K ∨ p ∈ dataPositions K) ∨ p = nBits K := by
  rw [mem_dataPositions]
  rw [nBits_eq] at h2 ⊢
  by_cases hsec : p ∈ secParityPositions K
  · exact .inl (.inl hsec)
  · rcases Nat.le_or_eq_of_le_succ h2 with hle | hlast
    · exact .inl (.inr ⟨⟨h1, hle⟩, hsec⟩)
    · exact .inr hlast

/-! ## The constant outputs (10_state.md R24) -/

/-- A number of `[0, N]` is read back from `W_POS` bits (00_scope.md R6). -/
theorem toNat_zextTo_wPos {K x : Nat} (h : x ≤ nBits K) : (zextTo (wPos K) x).toNat = x :=
  toNat_zextTo (h.trans_lt (nBits_lt_two_pow_wPos K))

theorem toNat_cfgK (c : Config) : (cfgK c).toNat = c.K := toNat_zextTo_wPos (by rw [nBits_eq]; omega)

theorem toNat_cfgPSec (c : Config) : (cfgPSec c).toNat = pSec c.K := toNat_zextTo_wPos (by rw [nBits_eq]; omega)

theorem toNat_cfgN (c : Config) : (cfgN c).toNat = nBits c.K := toNat_zextTo_wPos le_rfl

theorem portAt_cfgSecMask {c : Config} {p : Nat} (h1 : 1 ≤ p) (h2 : p ≤ nBits c.K) :
    portAt (cfgSecMask c) p = true ↔ p ∈ secParityPositions c.K := by
  rw [cfgSecMask, portAt_positionMask _ h1 h2, decide_eq_true_eq]

theorem portAt_cfgDataMask {c : Config} {p : Nat} (h1 : 1 ≤ p) (h2 : p ≤ nBits c.K) :
    portAt (cfgDataMask c) p = true ↔ p ∈ dataPositions c.K := by
  rw [cfgDataMask, portAt_positionMask _ h1 h2, decide_eq_true_eq]

theorem portAt_cfgOvpMask {c : Config} {p : Nat} (h1 : 1 ≤ p) (h2 : p ≤ nBits c.K) :
    portAt (cfgOvpMask c) p = true ↔ p = nBits c.K := by
  rw [cfgOvpMask, portAt_positionMask _ h1 h2, decide_eq_true_eq, List.mem_singleton, overallParityPosition]

theorem cfgSecMask_and_cfgDataMask (c : Config) : cfgSecMask c &&& cfgDataMask c = 0 :=
  positionMask_and_eq_zero fun _ => not_mem_dataPositions_of_mem_sec

theorem cfgSecMask_and_cfgOvpMask (c : Config) : cfgSecMask c &&& cfgOvpMask c = 0 :=
  positionMask_and_eq_zero fun _ h => by simpa [overallParityPosition] using ne_nBits_of_mem_sec h

theorem cfgDataMask_and_cfgOvpMask (c : Config) : cfgDataMask c &&& cfgOvpMask c = 0 :=
  positionMask_and_eq_zero fun _ h => by simpa [overallParityPosition] using ne_nBits_of_mem_data h

theorem cfgMasks_or_eq_allOnes (c : Config) :
    cfgSecMask c ||| cfgDataMask c ||| cfgOvpMask c = BitVec.allOnes (nBits c.K) :=
  positionMask_or_or_eq_allOnes fun _ h1 h2 => by simpa [overallParityPosition] using mem_sec_or_data_or_last h1 h2

/-- Settles O7: the widths hold the numbers, the masks' bits are membership, the three sets partition `[1, N]`, and no
edge writes `cfg`. -/
theorem constantOutputs : Obligations.ConstantOutputs := by
  refine ⟨fun c => ⟨toNat_cfgK c, toNat_cfgPSec c, toNat_cfgN c, fun p h1 h2 => ?_, positionMask_last_eq_one c.K,
    cfgSecMask_and_cfgDataMask c, cfgSecMask_and_cfgOvpMask c, cfgDataMask_and_cfgOvpMask c,
    cfgMasks_or_eq_allOnes c⟩, fun s t => cfg_eq_of_step_eq_next, by decide⟩
  exact ⟨portAt_cfgSecMask h1 h2, portAt_cfgDataMask h1 h2, portAt_cfgOvpMask h1 h2⟩

/-! ## The cycle step -/

/-- Settles O22: the accepting branch of the update rule. -/
theorem stepRunsTheRequest : Obligations.StepRunsTheRequest := by
  intro c p ps r hrst hreq
  exact step_of_request (s := { cfg := c, inputs := p :: ps, rsp := r }) hrst hreq

/-- Settles O23: one rule per branch; the accepted response is `resultOf` of the instruction, which no register enters. -/
theorem cycleStep : Obligations.CycleStep := by
  intro c p ps
  refine ⟨fun hrst r => ?_, fun hrst hreq => ?_, fun hrst hreq r => ?_⟩
  · exact step_of_rst (s := { cfg := c, inputs := p :: ps, rsp := r }) hrst
  · refine ⟨{ resultOf c (requested c p) with valid := true, op := p.reqOp }, rfl, rfl, fun r => ?_⟩
    have hexec := exec_requested { cfg := c, inputs := ps, rsp := r } p
    exact ⟨hexec, (stepRunsTheRequest c p ps r hrst hreq).trans hexec⟩
  · exact step_of_idle (s := { cfg := c, inputs := p :: ps, rsp := r }) hrst hreq

/-! ## Several blocks (10_state.md R31) -/

theorem stepInstance_of_none {blocks : List State} {n : Nat} (hn : blocks[n]? = none) :
    stepInstance blocks n = blocks := by
  simp only [stepInstance, hn]

theorem stepInstance_of_some {blocks : List State} {n : Nat} {s t : State} (hs : blocks[n]? = some s)
    (ht : step s = .next t) : stepInstance blocks n = blocks.set n t := by
  simp only [stepInstance, hs, ht]

/-- Settles O49: an edge of a block that is there replaces it and nothing else, an edge of no block changes nothing. -/
theorem instancesShareNothing : Obligations.InstancesShareNothing := by
  intro blocks n
  cases hn : blocks[n]? with
  | none => simp [stepInstance_of_none hn]
  | some s =>
    obtain ⟨t, ht⟩ := exists_step_eq_next s
    obtain ⟨hlt, -⟩ := List.getElem?_eq_some_iff.1 hn
    rw [stepInstance_of_some hn ht]
    refine ⟨List.length_set, fun m hm => List.getElem?_set_ne hm.symm, ?_⟩
    rintro _ ⟨⟩
    exact ⟨t, ht, List.getElem?_set_self hlt⟩

end Sys2Proof.Machine

namespace Sys2Proof.Machine

/-! ## REQ words and instructions (30_encoding.md R70, R71, R75) -/

theorem decodeReq_zero (K : Nat) (cw : BitVec (nBits K)) (data : BitVec K) :
    decodeReq K 0 cw data = .encode (unpackSeq data) := rfl

theorem decodeReq_one (K : Nat) (cw : BitVec (nBits K)) (data : BitVec K) :
    decodeReq K 1 cw data = .evaluate (unpackSeq cw) := rfl

theorem decodeReq_two (K : Nat) (cw : BitVec (nBits K)) (data : BitVec K) :
    decodeReq K 2 cw data = .decode (unpackSeq cw) := rfl

theorem decodeReq_three (K : Nat) (cw : BitVec (nBits K)) (data : BitVec K) :
    decodeReq K 3 cw data = .rsvd := rfl

theorem decodeWord_packReq (K : Nat) (op : BitVec 2) (cw : BitVec (nBits K)) (data : BitVec K) :
    decodeWord K (packReq K op cw data) = decodeReq K op cw data := by
  rw [decodeWord, opField_packReq, cwField_packReq, dataField_packReq]

/-- The request fields of a well-formed instruction decode to it: packing an operand of its port's length loses nothing. -/
theorem decodeReq_of_wellFormed {K : Nat} {i : Instr} (h : wellFormed K i = true) :
    decodeReq K (opCode i) (cwOperand K i) (dataOperand K i) = i := by
  cases i with
  | encode data => exact congrArg Instr.encode (unpackSeq_packSeq data (beq_iff_eq.1 h))
  | evaluate cw => exact congrArg Instr.evaluate (unpackSeq_packSeq cw (beq_iff_eq.1 h))
  | decode cw => exact congrArg Instr.decode (unpackSeq_packSeq cw (beq_iff_eq.1 h))
  | rsvd => rfl

theorem decodeWord_encodeWord {K : Nat} {i : Instr} (h : wellFormed K i = true) :
    decodeWord K (encodeWord K i) = i := by
  rw [encodeWord, decodeWord_packReq, decodeReq_of_wellFormed h]

theorem decodeBits_of_length {K : Nat} {bits : BitSeq} (h : bits.length = wReq K) :
    decodeBits K bits = .ok (decodeWord K (packSeq (wReq K) bits)) := if_pos h

theorem decodeBits_of_length_ne {K : Nat} {bits : BitSeq} (h : bits.length ≠ wReq K) :
    decodeBits K bits = .error (.wrongWordLength bits.length (wReq K)) := if_neg h

theorem decodeBits_unpackSeq {K : Nat} (w : BitVec (wReq K)) : decodeBits K (unpackSeq w) = .ok (decodeWord K w) := by
  rw [decodeBits_of_length (length_unpackSeq w), packSeq_unpackSeq]

/-- Settles O35: the fields come back out of the packed word, and the operand out of its field. -/
theorem decodeOfEncode : Obligations.DecodeOfEncode := by
  intro K i h
  have hword := decodeWord_encodeWord h
  exact ⟨hword, by rw [encodeBits, decodeBits_unpackSeq, hword]⟩

/-- The four values of the `op` field (30_encoding.md R71). -/
theorem op_cases (op : BitVec 2) : op = 0 ∨ op = 1 ∨ op = 2 ∨ op = 3 := by
  revert op
  decide

/-- `req_cw` is driven with the codeword the decoded row reads, and with 0 where it reads none (30_encoding.md R76). -/
theorem cwOperand_decodeReq (K : Nat) (op : BitVec 2) (cw : BitVec (nBits K)) (data : BitVec K) :
    cwOperand K (decodeReq K op cw data) = if op = 1 ∨ op = 2 then cw else 0 := by
  rcases op_cases op with rfl | rfl | rfl | rfl
  · rfl
  · exact packSeq_unpackSeq cw
  · exact packSeq_unpackSeq cw
  · rfl

/-- `req_data` is driven with the data word the decoded row reads, and with 0 where it reads none (30_encoding.md R76). -/
theorem dataOperand_decodeReq (K : Nat) (op : BitVec 2) (cw : BitVec (nBits K)) (data : BitVec K) :
    dataOperand K (decodeReq K op cw data) = if op = 0 then data else 0 := by
  rcases op_cases op with rfl | rfl | rfl | rfl
  · exact packSeq_unpackSeq data
  · rfl
  · rfl
  · rfl

/-- Settles O36: field by field, since a decoded word carries what its row reads and nothing else. -/
theorem encodeOfDecode : Obligations.EncodeOfDecode := by
  intro K w
  rw [encodeWord, decodeWord, opCode_decodeReq, cwOperand_decodeReq, dataOperand_decodeReq]

/-- Settles O34: the four rows of the decoder. -/
theorem opFieldSelectsTheOperation : Obligations.OpFieldSelectsTheOperation := fun K cw data =>
  ⟨decodeReq_zero K cw data, decodeReq_one K cw data, decodeReq_two K cw data, decodeReq_three K cw data⟩

/-- Settles O37: the length check of the decoder, and every request's instruction is well-formed. -/
theorem onlyTheLengthCanBeWrong : Obligations.OnlyTheLengthCanBeWrong := fun _ _ =>
  ⟨decodeBits_of_length_ne, fun h => ⟨_, decodeBits_of_length h, wellFormed_decodeReq ..⟩⟩

/-- Settles O38: four closed words, evaluated. -/
theorem wordsOfTheSpecDecode : Obligations.WordsOfTheSpecDecode :=
  ⟨by decide, by decide, by decide, by decide⟩

/-! ## Numerals (30_encoding.md R76) -/

theorem digitsValue_singleton (base : Nat) {value : Char → Option Nat} {ch : Char} {d : Nat} (h : value ch = some d) :
    digitsValue base value [ch] = some d := by
  simp [digitsValue, h]

/-- A digit written after a numeral: the value is scaled by the base and the digit added. -/
theorem digitsValue_concat (base : Nat) {value : Char → Option Nat} {ds : List Char} {ch : Char} {a d : Nat}
    (ha : digitsValue base value ds = some a) (hd : value ch = some d) :
    digitsValue base value (ds ++ [ch]) = some (base * a + d) := by
  unfold digitsValue at ha ⊢
  split at ha
  · cases ha
  · simp [List.foldl_append, ha, hd]

theorem digitsValue_cons_of_none (base : Nat) {value : Char → Option Nat} {ch : Char} (h : value ch = none)
    (ds : List Char) : digitsValue base value (ch :: ds) = none := by
  have hnone : ∀ ds : List Char,
      ds.foldl (fun acc ch => acc.bind fun a => (value ch).map fun d => base * a + d) none = none := by
    intro ds
    induction ds with
    | nil => rfl
    | cons _ ds ih => exact ih
  simp [digitsValue, h, hnone]

/-! ## The `.k` directive (30_encoding.md R76, 40_parameters.md R100) -/

theorem numeralValue_neg (ds : List Char) :
    numeralValue ('-' :: ds) = (digitsValue 10 decimalValue ds).map fun n => -(n : Int) := rfl

/-- Digits are read without a sign, since `-` is no digit. -/
theorem numeralValue_of_digitsValue {ds : List Char} {n : Nat} (h : digitsValue 10 decimalValue ds = some n) :
    numeralValue ds = some (n : Int) := by
  unfold numeralValue
  split
  · rw [digitsValue_cons_of_none 10 (by decide)] at h
    cases h
  · simp [h]

theorem parseWidth_of_one_le {text : List Char} {k : Int} (hk : numeralValue text = some k) (h : 1 ≤ k.toNat) :
    parseWidth text = .ok { K := k.toNat, one_le_K := h } := by
  simp [parseWidth, hk, h]

theorem parseWidth_of_lt_one {text : List Char} {k : Int} (hk : numeralValue text = some k) (h : k < 1) :
    parseWidth text = .error (.host (.invalidWidth k)) := by
  have hk0 : ¬ 1 ≤ k.toNat := by omega
  simp only [parseWidth, hk, dif_neg hk0]

/-- Settles O46: the numeral's value decides, and with a minus sign it is never above 0. -/
theorem widthDirectiveNamesTheInstance : Obligations.WidthDirectiveNamesTheInstance := by
  intro digits n h
  have hpos := numeralValue_of_digitsValue h
  have hneg : numeralValue ('-' :: digits) = some (-(n : Int)) := by rw [numeralValue_neg, h]; rfl
  exact ⟨fun hn => ⟨⟨n, hn⟩, rfl, parseWidth_of_one_le hpos hn⟩,
    fun hn => parseWidth_of_lt_one hpos (by omega), parseWidth_of_lt_one hneg (by omega)⟩

/-! ## Hex words (30_encoding.md R76, R77) -/

theorem hexValue_hexChar : ∀ d < 16, hexValue (hexChar d) = some d := by decide

/-- The `n` lowest hexadecimal digits of `v`, the most significant first: those `hexWord` writes (`hexWord_eq`). -/
def hexDigits (n v : Nat) : List Nat := (List.range n).map fun i => v / 16 ^ (n - 1 - i) % 16

theorem hexWord_eq {W : Nat} (v : BitVec W) :
    hexWord v = '0' :: 'x' :: (hexDigits ((W + 3) / 4) v.toNat).map hexChar := by
  simp [hexWord, hexDigits]

theorem hexDigits_one (v : Nat) : hexDigits 1 v = [v % 16] := by simp [hexDigits]

theorem hexDigits_succ (n v : Nat) : hexDigits (n + 1) v = hexDigits n (v / 16) ++ [v % 16] := by
  have hdigit : ∀ i ∈ List.range n, v / 16 ^ (n + 1 - 1 - i) % 16 = v / 16 / 16 ^ (n - 1 - i) % 16 := by
    intro i hi
    have hin : n + 1 - 1 - i = (n - 1 - i) + 1 := by have := List.mem_range.1 hi; omega
    rw [hin, Nat.pow_succ', Nat.div_div_eq_div_mul]
  rw [hexDigits, List.range_succ, List.map_append, List.map_congr_left hdigit]
  simp [hexDigits]

/-- Hexadecimal digits read back as the number they were written from, by induction on how many there are. -/
theorem digitsValue_hexDigits (n v : Nat) :
    digitsValue 16 hexValue ((hexDigits (n + 1) v).map hexChar) = some (v % 16 ^ (n + 1)) := by
  have hlast (v : Nat) : hexValue (hexChar (v % 16)) = some (v % 16) := hexValue_hexChar _ (Nat.mod_lt _ (by decide))
  induction n generalizing v with
  | zero => simpa [hexDigits_one] using digitsValue_singleton 16 (hlast v)
  | succ n ih =>
    rw [hexDigits_succ, List.map_append, List.map_singleton, digitsValue_concat 16 (ih (v / 16)) (hlast v),
      Nat.pow_succ' (n := n + 1), Nat.mod_mul, Nat.add_comm]

theorem parseOperand_hex {L v : Nat} {ds : List Char} (hds : digitsValue 16 hexValue ds = some v) (hv : v < 2 ^ L) :
    parseOperand L ('0' :: 'x' :: ds) = .ok (BitVec.ofNat L v) := by
  simp [parseOperand, hds, hv]

/-- The digits of a word of `L` bits, four bits each, are enough for it. -/
theorem two_pow_le_sixteen_pow (L : Nat) : 2 ^ L ≤ 16 ^ ((L + 3) / 4) :=
  calc 2 ^ L ≤ 2 ^ (4 * ((L + 3) / 4)) := Nat.pow_le_pow_right (by decide) (by omega)
    _ = 16 ^ ((L + 3) / 4) := Nat.pow_mul 2 4 _

/-- Settles O48: the digits' value is the port value, since the digits are enough for `L` bits. -/
theorem hexOperandReadsBack : Obligations.HexOperandReadsBack := by
  intro L v hL
  obtain ⟨n, hn⟩ : ∃ n, (L + 3) / 4 = n + 1 := ⟨(L + 3) / 4 - 1, by omega⟩
  have hfits : v.toNat < 16 ^ (n + 1) := hn ▸ v.isLt.trans_le (two_pow_le_sixteen_pow L)
  have hvalue := digitsValue_hexDigits n v.toNat
  rw [Nat.mod_eq_of_lt hfits] at hvalue
  rw [hexWord_eq, hn, parseOperand_hex hvalue v.isLt, BitVec.ofNat_toNat, BitVec.setWidth_eq]

/-! ## Binary strings (48_host_interface.md R230, R232) -/

@[simp] theorem length_charsOfSeq (x : BitSeq) : (charsOfSeq x).length = x.length := by simp [charsOfSeq]

theorem isBinary_of_mem_charsOfSeq {x : BitSeq} {ch : Char} (h : ch ∈ charsOfSeq x) : isBinary ch = true := by
  obtain ⟨b, -, rfl⟩ := List.mem_map.1 h
  cases b <;> rfl

theorem seqOfChars_charsOfSeq {L : Nat} {x : BitSeq} (hx : x.length = L) : seqOfChars L (charsOfSeq x) = .ok x := by
  have hbinary : (charsOfSeq x).all isBinary = true := List.all_eq_true.2 fun _ => isBinary_of_mem_charsOfSeq
  have hbits : (charsOfSeq x).map (fun ch => ch == '1') = x := by
    rw [charsOfSeq, List.map_map]
    refine List.map_id'' (fun b => ?_) x
    cases b <;> rfl
  simp [seqOfChars, hx, hbinary, hbits]

theorem toPort_charsOfSeq {L : Nat} {x : BitSeq} (hx : x.length = L) : toPort L (charsOfSeq x) = .ok (packSeq L x) := by
  rw [toPort, seqOfChars_charsOfSeq hx]
  rfl

/-- A binary string is never taken for a hex operand, since `x` is no binary symbol. -/
theorem parseOperand_charsOfSeq {L : Nat} {x : BitSeq} (hx : x.length = L) :
    parseOperand L (charsOfSeq x) = .ok (packSeq L x) := by
  unfold parseOperand
  split
  next ds heq =>
    have hmem : 'x' ∈ charsOfSeq x := by simp [heq]
    exact absurd (isBinary_of_mem_charsOfSeq hmem) (by decide)
  next => rw [toPort_charsOfSeq hx]; rfl

/-! ## Lines and listings (30_encoding.md R76, R77) -/

/-- The line of an instruction assembles to the request cycle of its three fields. -/
theorem assembleLine_lineOf {c : Config} {i : Instr} (h : wellFormed c.K i = true) :
    assembleLine c (lineOf i) = .ok (requestCycle c (opCode i) (cwOperand c.K i) (dataOperand c.K i)) := by
  cases i with
  | encode data =>
    show (parseOperand c.K (charsOfSeq data)).map _ = _
    rw [parseOperand_charsOfSeq (beq_iff_eq.1 h)]; rfl
  | evaluate cw =>
    show (parseOperand (nBits c.K) (charsOfSeq cw)).map _ = _
    rw [parseOperand_charsOfSeq (beq_iff_eq.1 h)]; rfl
  | decode cw =>
    show (parseOperand (nBits c.K) (charsOfSeq cw)).map _ = _
    rw [parseOperand_charsOfSeq (beq_iff_eq.1 h)]; rfl
  | rsvd => rfl

theorem assembleLine_nop (c : Config) : assembleLine c [['N', 'O', 'P']] = .ok (nopCycle c) := rfl

theorem assembleLine_reset (c : Config) : assembleLine c [['R', 'E', 'S', 'E', 'T']] = .ok (resetCycle c) := rfl

theorem listingWord_of_request {c : Config} {p : PortIn c} (h : p.reqValid = true) :
    listingWord c p = some (packReq c.K p.reqOp p.reqCw p.reqData) := if_pos h

theorem listingWord_of_no_request {c : Config} {p : PortIn c} (h : p.reqValid = false) :
    listingWord c p = none := if_neg (by simp [h])

theorem listingRow_of_request {c : Config} {p : PortIn c} (h : p.reqValid = true) :
    listingRow c p = (p.rst, true, hexWord (packReq c.K p.reqOp p.reqCw p.reqData)) := by
  rw [listingRow, listingWord_of_request h, h]; rfl

theorem listingRow_of_no_request {c : Config} {p : PortIn c} (h : p.reqValid = false) :
    listingRow c p = (p.rst, false, ['-']) := by
  rw [listingRow, listingWord_of_no_request h, h]; rfl

/-- Settles O47: the line drives the instruction's fields, which decode to it and pack to its REQ word. -/
theorem assembledLinesPresentTheInstruction : Obligations.AssembledLinesPresentTheInstruction := by
  intro c
  refine ⟨fun i h => ?_, ?_, ?_, fun _ => listingRow_of_request, fun _ => listingRow_of_no_request⟩
  · exact ⟨_, assembleLine_lineOf h, rfl, rfl, decodeReq_of_wellFormed h, listingWord_of_request rfl⟩
  · exact ⟨nopCycle c, assembleLine_nop c, rfl, rfl, listingWord_of_no_request rfl⟩
  · exact ⟨resetCycle c, assembleLine_reset c, rfl, rfl, listingWord_of_no_request rfl⟩

end Sys2Proof.Machine

namespace Sys2Proof.Machine

/-! ## The number of check bits, by range of the width (40_parameters.md R101, R111, R112) -/

/-- Settles O1: the loop's answer satisfies the bound, and every candidate it passed over does not. -/
theorem checkBitCountIsLeast : Obligations.CheckBitCountIsLeast := fun K =>
  ⟨pSec_covers K, fun p hp => (pSec_least K p hp).not_ge, rfl, rfl⟩

theorem two_pow_add_le_two_pow_add (q d : Nat) : 2 ^ q + d ≤ 2 ^ (q + d) := by
  induction d with
  | zero => exact le_rfl
  | succ d ih =>
    have hpos : 1 ≤ 2 ^ (q + d) := Nat.one_le_two_pow
    rw [← Nat.add_assoc, ← Nat.add_assoc, Nat.pow_succ]
    omega

theorem two_pow_pred_pSec_lt {K : Nat} (hK : 1 ≤ K) : 2 ^ (pSec K - 1) < K + pSec K := by
  have hp := two_le_pSec hK
  have hlt := pSec_least K (pSec K - 1) (by omega)
  omega

/-- Since `2^q - q` does not fall as `q` grows, the candidate before `p` decides for all smaller ones. -/
theorem pSec_eq_of_range {K p : Nat} (hp : 1 ≤ p) (hlo : 2 ^ (p - 1) + 1 ≤ K + p) (hhi : K + p + 1 ≤ 2 ^ p) :
    pSec K = p := by
  refine pSec_unique K p hhi fun q hq => ?_
  have hmono := two_pow_add_le_two_pow_add q (p - 1 - q)
  rw [show q + (p - 1 - q) = p - 1 by omega] at hmono
  omega

theorem pSec_eq_iff {K p : Nat} (hK : 1 ≤ K) (hp : 2 ≤ p) :
    pSec K = p ↔ 2 ^ (p - 1) + 1 ≤ K + p ∧ K + p + 1 ≤ 2 ^ p := by
  constructor
  · rintro rfl
    exact ⟨two_pow_pred_pSec_lt hK, pSec_covers K⟩
  · rintro ⟨hlo, hhi⟩
    exact pSec_eq_of_range (by omega) hlo hhi

/-- A row of R111's table. -/
theorem pSec_nBits_of_range {K p : Nat} (hp : 1 ≤ p) (hlo : 2 ^ (p - 1) + 1 ≤ K + p) (hhi : K + p + 1 ≤ 2 ^ p) :
    pSec K = p ∧ nBits K = K + (p + 1) := by
  have h := pSec_eq_of_range hp hlo hhi
  exact ⟨h, by rw [nBits_eq, h, Nat.add_assoc]⟩

/-- Settles O4: the range of each count, read for the counts 2 to 8. -/
theorem checkBitCountByRange : Obligations.CheckBitCountByRange :=
  ⟨fun _ _ => pSec_eq_iff,
    pSec_nBits_of_range (p := 2) (by omega) (by omega) (by omega),
    fun _ _ _ => pSec_nBits_of_range (p := 3) (by omega) (by omega) (by omega),
    fun _ _ _ => pSec_nBits_of_range (p := 4) (by omega) (by omega) (by omega),
    fun _ _ _ => pSec_nBits_of_range (p := 5) (by omega) (by omega) (by omega),
    fun _ _ _ => pSec_nBits_of_range (p := 6) (by omega) (by omega) (by omega),
    fun _ _ _ => pSec_nBits_of_range (p := 7) (by omega) (by omega) (by omega),
    fun _ _ _ => pSec_nBits_of_range (p := 8) (by omega) (by omega) (by omega)⟩

/-- A protected position is read back from its `P_SEC`-bit pattern (40_parameters.md R112 (c)). -/
theorem toNat_zextTo_pSec {K p : Nat} (h : p ≤ nBits K - 1) : (zextTo (pSec K) p).toNat = p :=
  toNat_zextTo (protected_lt_two_pow h)

theorem zextTo_pSec_ne_zero {K p : Nat} (h1 : 1 ≤ p) (h2 : p ≤ nBits K - 1) : zextTo (pSec K) p ≠ 0 := by
  intro hzero
  have hp := toNat_zextTo_pSec h2
  rw [hzero] at hp
  exact absurd hp.symm (Nat.ne_of_gt h1)

theorem zextTo_pSec_inj {K p q : Nat} (hp : p ≤ nBits K - 1) (hq : q ≤ nBits K - 1)
    (h : zextTo (pSec K) p = zextTo (pSec K) q) : p = q := by
  rw [← toNat_zextTo_pSec hp, h, toNat_zextTo_pSec hq]

theorem headroom_eq_zero_iff (K : Nat) : headroom K = 0 ↔ K = 2 ^ pSec K - pSec K - 1 := by
  have hcovers := pSec_covers K
  rw [headroom, nBits_eq]
  omega

theorem pSec_le_eight {K : Nat} (h : K ≤ 247) : pSec K ≤ 8 := by
  by_contra hlt
  have := pSec_least K 8 (by omega)
  omega

/-- The widths without headroom, one for each number of check bits from 2 to 8 (40_parameters.md R112 (d)). -/
theorem headroom_eq_zero_iff_mem {K : Nat} (hK : 1 ≤ K) (hmax : K ≤ 247) :
    headroom K = 0 ↔ K ∈ [1, 4, 11, 26, 57, 120, 247] := by
  constructor
  · intro h
    have hwidth := (headroom_eq_zero_iff K).1 h
    have hlo := two_le_pSec hK
    have hhi := pSec_le_eight hmax
    generalize pSec K = p at hwidth hlo hhi
    interval_cases p <;> simp [hwidth]
  · have hrow : ∀ k ∈ [1, 4, 11, 26, 57, 120, 247], headroom k = 0 := by decide
    exact hrow K

/-- Settles O5: the bounds of R101 read off `P_SEC` and `P_SEC - 1`. -/
theorem codeSizeBounds : Obligations.CodeSizeBounds := by
  refine ⟨fun K hK => ⟨two_le_pSec hK, ⟨?_, fun p => secParity_in_positions⟩,
    Nat.sub_le_sub_right (nBits_le_two_pow_pSec K) 1, fun p h1 h2 => ⟨zextTo_pSec_ne_zero h1 h2, fun q _ hq => ?_⟩,
    nBits_le_two_pow_pSec K, rfl, headroom_eq_zero_iff K⟩, fun K => headroom_eq_zero_iff_mem, by decide⟩
  · exact Nat.le_sub_one_of_lt (two_pow_pred_pSec_lt hK)
  · exact zextTo_pSec_inj h2 hq

/-! ## The record and the sets of positions (40_parameters.md R100, R104 to R107) -/

theorem derive_of_lt_one {k : Int} (h : k < 1) : derive k = .error (.invalidWidth k) := if_pos h

theorem derive_natCast {K : Nat} (h : 1 ≤ K) : derive (K : Int) = .ok (codeParameters K) :=
  if_neg (by omega)

/-- Settles O3: the two branches of `derive`; the record's fields are its definitions. -/
theorem deriveRefusesOnlyWidthsBelowOne : Obligations.DeriveRefusesOnlyWidthsBelowOne :=
  ⟨fun _ hk => ⟨derive_of_lt_one hk, rfl⟩,
    fun K hK => ⟨codeParameters K, derive_natCast hK, rfl, rfl, rfl, rfl, rfl, rfl, rfl⟩⟩

theorem lt_pSec_of_two_pow_le {K i : Nat} (h : 2 ^ i ≤ K + pSec K) : i < pSec K :=
  (Nat.pow_lt_pow_iff_right Nat.one_lt_two).1 (Nat.lt_of_le_of_lt h (pSec_covers K))

/-- Of the positions `[1, K+P_SEC]`, the check positions are all the powers of two (40_parameters.md R104). -/
theorem mem_secParityPositions_iff_two_pow {K p : Nat} (h : p ≤ K + pSec K) :
    p ∈ secParityPositions K ↔ ∃ i, p = 2 ^ i := by
  rw [mem_secParityPositions]
  constructor
  · rintro ⟨i, -, hp⟩
    exact ⟨i, hp⟩
  · rintro ⟨i, rfl⟩
    exact ⟨i, lt_pSec_of_two_pow_le h, rfl⟩

theorem mem_dataPositions_iff_not_two_pow {K p : Nat} :
    p ∈ dataPositions K ↔ (1 ≤ p ∧ p ≤ K + pSec K) ∧ ¬ ∃ i, p = 2 ^ i := by
  rw [mem_dataPositions]
  exact and_congr_right fun h => not_congr (mem_secParityPositions_iff_two_pow h.2)

theorem getElem?_secParityPositions_eq_some_iff {K i p : Nat} :
    (secParityPositions K)[i]? = some p ↔ i < pSec K ∧ p = 2 ^ i := by
  rw [List.getElem?_eq_some_iff]
  simp [eq_comm]

theorem mem_sec_or_data_iff {K p : Nat} :
    (p ∈ secParityPositions K ∨ p ∈ dataPositions K) ↔ 1 ≤ p ∧ p ≤ K + pSec K := by
  constructor
  · rintro (hsec | hdata)
    · exact secParity_in_positions hsec
    · exact (mem_dataPositions.1 hdata).1
  · intro h
    by_cases hsec : p ∈ secParityPositions K
    · exact .inl hsec
    · exact .inr (mem_dataPositions.2 ⟨h, hsec⟩)

/-- Settles O2: below `2^P_SEC` the check positions are the powers of two, and the data positions are the
others. -/
theorem positionsPartition : Obligations.PositionsPartition := fun K =>
  ⟨⟨length_secParityPositions K, fun _ hi => getElem?_secParityPositions_eq_some_iff.2 ⟨hi, rfl⟩⟩,
    fun _ => secParity_in_positions, ⟨length_dataPositions K, sorted_dataPositions K⟩,
    fun _ => mem_dataPositions_iff_not_two_pow, fun _ h => not_mem_dataPositions_of_mem_sec h.1 h.2,
    fun _ => mem_sec_or_data_iff, rfl, fun h => ne_nBits_of_mem_sec h rfl, fun h => ne_nBits_of_mem_data h rfl⟩

/-! ## The role of a position (40_parameters.md R109, R110) -/

theorem position_cases (K p : Nat) :
    p ∈ secParityPositions K ∨ p ∈ dataPositions K ∨ p = nBits K ∨ (p < 1 ∨ nBits K < p) := by
  by_cases h : 1 ≤ p ∧ p ≤ nBits K
  · rcases mem_sec_or_data_or_last h.1 h.2 with (hsec | hdata) | hlast
    · exact .inl hsec
    · exact .inr (.inl hdata)
    · exact .inr (.inr (.inl hlast))
  · exact .inr (.inr (.inr (by omega)))

theorem role_nBits (K : Nat) : role K (nBits K) = some .ovp := if_pos rfl

theorem role_of_mem_sec {K p : Nat} (h : p ∈ secParityPositions K) :
    role K p = some (.sec ((secParityPositions K).idxOf p)) := by
  simp [role, overallParityPosition, ne_nBits_of_mem_sec h, h]

theorem role_of_mem_data {K p : Nat} (h : p ∈ dataPositions K) :
    role K p = some (.data ((dataPositions K).idxOf p)) := by
  simp [role, overallParityPosition, ne_nBits_of_mem_data h, h, (mem_dataPositions.1 h).2]

theorem role_of_outside {K p : Nat} (h : p < 1 ∨ nBits K < p) : role K p = none := by
  have hin : ¬ (p ∈ secParityPositions K ∨ p ∈ dataPositions K) := by
    rw [mem_sec_or_data_iff]
    rw [nBits_eq] at h
    omega
  obtain ⟨hsec, hdata⟩ := not_or.1 hin
  have hlast : p ≠ nBits K := by
    have := one_le_nBits K
    omega
  simp [role, overallParityPosition, hlast, hsec, hdata]

/-- The position that has a given role, if there is one: the inverse of `role` (`role_eq_some_iff`). -/
def positionOfRole (K : Nat) : Role → Option Nat
  | .sec i => (secParityPositions K)[i]?
  | .data j => (dataPositions K)[j]?
  | .ovp => some (nBits K)

theorem role_eq_some_iff {K p : Nat} {r : Role} : role K p = some r ↔ positionOfRole K r = some p := by
  constructor
  · intro h
    rcases position_cases K p with hsec | hdata | rfl | hout
    · obtain rfl := Option.some.inj ((role_of_mem_sec hsec).symm.trans h)
      exact List.getElem?_idxOf hsec
    · obtain rfl := Option.some.inj ((role_of_mem_data hdata).symm.trans h)
      exact List.getElem?_idxOf hdata
    · obtain rfl := Option.some.inj ((role_nBits K).symm.trans h)
      rfl
    · simp [role_of_outside hout] at h
  · intro h
    cases r with
    | sec i =>
      obtain ⟨hi, rfl⟩ := List.getElem?_eq_some_iff.1 h
      rw [role_of_mem_sec (List.getElem_mem hi), (secParityPositions_nodup K).idxOf_getElem]
    | data j =>
      obtain ⟨hj, rfl⟩ := List.getElem?_eq_some_iff.1 h
      rw [role_of_mem_data (List.getElem_mem hj), (nodup_dataPositions K).idxOf_getElem]
    | ovp =>
      obtain rfl := Option.some.inj h
      exact role_nBits K

theorem role_eq_none_iff {K p : Nat} : role K p = none ↔ p < 1 ∨ nBits K < p := by
  refine ⟨fun h => ?_, role_of_outside⟩
  rcases position_cases K p with hsec | hdata | rfl | hout
  · simp [role_of_mem_sec hsec] at h
  · simp [role_of_mem_data hdata] at h
  · simp [role_nBits] at h
  · exact hout

theorem positions_eq_append {m p : Nat} (h1 : 1 ≤ p) (h2 : p ≤ m) :
    positions 1 m = positions 1 (p - 1) ++ p :: positions (p + 1) m := by
  have hsplit : m + 1 - 1 = (p - 1) + ((m - p) + 1) := by omega
  simp only [positions, hsplit, ← List.range'_append, List.range'_succ]
  congr 2
  · omega
  · congr 1 <;> omega

/-- The check positions below `p` are counted by their indices. -/
theorem length_filter_sec_below (K p : Nat) :
    ((positions 1 (p - 1)).filter (fun b => (secParityPositions K).contains b)).length =
      ((List.range (pSec K)).filter (fun i => decide (2 ^ i < p))).length := by
  have hperm : ((positions 1 (p - 1)).filter (fun b => (secParityPositions K).contains b)).Perm
      ((secParityPositions K).filter (fun b => decide (b < p))) := by
    refine (List.perm_ext_iff_of_nodup ((nodup_positions _ _).filter _)
      ((secParityPositions_nodup K).filter _)).2 fun b => ?_
    simp only [List.mem_filter, mem_positions, List.contains_iff_mem, decide_eq_true_eq]
    constructor
    · rintro ⟨⟨h1, h2⟩, hsec⟩
      exact ⟨hsec, by omega⟩
    · rintro ⟨hsec, hlt⟩
      have := (secParity_in_positions hsec).1
      exact ⟨⟨this, by omega⟩, hsec⟩
  rw [hperm.length_eq, secParityPositions, List.filter_map, List.length_map]
  rfl

/-- The data positions below `p` (`dataPositions_eq_append`). -/
def dataPositionsBelow (K p : Nat) : List Nat :=
  (positions 1 (p - 1)).filter (fun b => !(secParityPositions K).contains b)

theorem dataPositions_eq_append {K p : Nat} (h : p ∈ dataPositions K) :
    ∃ above, dataPositions K = dataPositionsBelow K p ++ p :: above := by
  obtain ⟨⟨h1, h2⟩, hsec⟩ := mem_dataPositions.1 h
  rw [dataPositions, positions_eq_append h1 h2, List.filter_append, List.filter_cons_of_pos (by simpa using hsec)]
  exact ⟨_, rfl⟩

/-- The positions below `p` less the check positions below it. -/
theorem length_dataPositionsBelow (K p : Nat) :
    (dataPositionsBelow K p).length =
      p - 1 - ((List.range (pSec K)).filter (fun i => decide (2 ^ i < p))).length := by
  have hsplit := List.length_eq_length_filter_add (l := positions 1 (p - 1))
    (fun b => (secParityPositions K).contains b)
  rw [length_positions_one, length_filter_sec_below] at hsplit
  rw [dataPositionsBelow]
  omega

/-- The index of a data position is the number of data positions below it (40_parameters.md R110). -/
theorem eq_length_dataPositionsBelow {K p j : Nat} (h : (dataPositions K)[j]? = some p) :
    j = (dataPositionsBelow K p).length := by
  obtain ⟨hj, -⟩ := List.getElem?_eq_some_iff.1 h
  obtain ⟨above, hcut⟩ := dataPositions_eq_append (List.mem_of_getElem? h)
  refine (List.getElem?_inj hj (nodup_dataPositions K)).1 (h.trans ?_)
  rw [hcut, List.getElem?_append_right le_rfl, Nat.sub_self, List.getElem?_cons_zero]

/-- Settles O6: `role` and the lists of positions are inverse, and the index is the rank. -/
theorem positionRoles : Obligations.PositionRoles := by
  refine ⟨fun K p => ⟨fun i => role_eq_some_iff.trans getElem?_secParityPositions_eq_some_iff,
    fun j => role_eq_some_iff, ?_, role_eq_none_iff, fun j h => ?_⟩, by decide⟩
  · rw [role_eq_some_iff, positionOfRole, Option.some_inj, eq_comm]
  · rw [← length_dataPositionsBelow]
    exact eq_length_dataPositionsBelow (role_eq_some_iff.1 h)

/-! ## The order of the check bits (40_parameters.md R113, 41_encode.md R133) -/

theorem setBit_comm {p q : Nat} (C : BitSeq) (a b : Bool) (hp : 1 ≤ p) (hq : 1 ≤ q) (h : p ≠ q) :
    setBit (setBit C p a) q b = setBit (setBit C q b) p a :=
  List.set_comm a b (by simp only [seqIndex]; omega)

theorem bitAt_setBit_of_ne {p q : Nat} (C : BitSeq) (b : Bool) (hp : 1 ≤ p) (hq : 1 ≤ q) (h : q ≠ p) :
    bitAt (setBit C p b) q = bitAt C q := by
  have hne : p - 1 ≠ q - 1 := by omega
  simp only [bitAt, setBit, seqIndex, List.getD_eq_getElem?_getD, List.getElem?_set_ne hne]

theorem checkBit_setBit_two_pow {K j : Nat} (i : Nat) (C : BitSeq) (b : Bool) (hj : j < pSec K) :
    checkBit K i (setBit C (2 ^ j) b) = checkBit K i C :=
  checkBit_congr fun _ h1 _ hsec => bitAt_setBit_of_ne C b Nat.one_le_two_pow h1
    fun hp => hsec (mem_secParityPositions.2 ⟨j, hj, hp⟩)

theorem placeCheck_comm {K i j : Nat} (C : BitSeq) (hi : i < pSec K) (hj : j < pSec K) :
    setBit (setBit C (2 ^ i) (checkBit K i C)) (2 ^ j) (checkBit K j (setBit C (2 ^ i) (checkBit K i C))) =
      setBit (setBit C (2 ^ j) (checkBit K j C)) (2 ^ i) (checkBit K i (setBit C (2 ^ j) (checkBit K j C))) := by
  by_cases h : i = j
  · rw [h]
  · rw [checkBit_setBit_two_pow j C _ hi, checkBit_setBit_two_pow i C _ hj]
    exact setBit_comm C _ _ Nat.one_le_two_pow Nat.one_le_two_pow fun hpow =>
      h (Nat.pow_right_injective le_rfl hpow)

theorem foldl_checks_of_perm {K : Nat} (C : BitSeq) {order : List Nat} (h : order.Perm (List.range (pSec K))) :
    order.foldl (fun C i => setBit C (2 ^ i) (checkBit K i C)) C = placeChecks K C :=
  h.foldl_eq' (fun _ hi _ hj C => placeCheck_comm C (List.mem_range.1 (h.subset hi)) (List.mem_range.1 (h.subset hj))) C

/-- R133's formula for a check bit, in one filter. -/
theorem checkBit_eq_xorOver (K i : Nat) (C : BitSeq) :
    checkBit K i C =
      xorOver ((positions 1 (K + pSec K)).filter (fun b => digit i b && b != 2 ^ i)) (bitAt C) := by
  rw [checkBit, covered, List.filter_filter]
  simp only [Bool.and_comm]

theorem checkBit_placeChecks {K : Nat} (i : Nat) {C : BitSeq} (hC : C.length = nBits K) :
    checkBit K i (placeChecks K C) = checkBit K i C :=
  checkBit_congr fun _ h1 _ hsec => bitAt_placeChecks_other hC h1 hsec

/-- Settles O9: a check bit reads no check position, so writing two of them commutes. -/
theorem checkBitsInAnyOrder : Obligations.CheckBitsInAnyOrder := by
  refine ⟨fun i j hij => ?_, fun K i C C' h => ?_, fun K C order _ hperm => foldl_checks_of_perm C hperm,
    fun K i C hC hi => ?_⟩
  · rw [digit_two_pow, decide_eq_false hij.symm]
  · exact checkBit_congr fun p h1 h2 hsec => h p (mem_dataPositions.2 ⟨⟨h1, h2⟩, hsec⟩)
  · rw [bitAt_placeChecks_check hC hi, ← checkBit_eq_xorOver, checkBit_placeChecks i hC]

end Sys2Proof.Machine

namespace Sys2Proof.Machine

/-! ## Codewords: the words all of whose parities are 0 (41_encode.md R136) -/

theorem syndrome_eq_zero_iff {K : Nat} {C : BitSeq} :
    syndrome K C = 0 ↔ ∀ i < pSec K, syndromeBit K i C = false := by
  constructor
  · intro h i hi
    have hbit := testBit_syndrome K i C
    rw [h, Nat.zero_testBit] at hbit
    simpa [hi] using hbit.symm
  · intro h
    refine Nat.eq_of_testBit_eq fun i => ?_
    rw [testBit_syndrome, Nat.zero_testBit]
    by_cases hi : i < pSec K
    · simp [h i hi]
    · simp [hi]

/-- A codeword is a word of even parity, over each covered set and over all of `[1, N]`. -/
theorem isCodeword_iff_parities {K : Nat} {C : BitSeq} :
    isCodeword K C ↔
      (∀ i < pSec K, syndromeBit K i C = false) ∧ xorOver (positions 1 (nBits K)) (bitAt C) = false := by
  rw [isCodeword, hammingEvaluate, Prod.mk.injEq, syndrome_eq_zero_iff, overallParityOk_eq, Bool.not_eq_true']

/-- A syndrome bit compares the stored check bit with the one computed again from the other positions it covers
(41_encode.md R133, 42_evaluate.md R162). -/
theorem syndromeBit_eq_xor_checkBit {K i : Nat} (C : BitSeq) (hi : i < pSec K) :
    syndromeBit K i C = Bool.xor (bitAt C (2 ^ i)) (checkBit K i C) :=
  xorOver_remove (nodup_covered _ _)
    (mem_covered.2 ⟨⟨Nat.one_le_two_pow, two_pow_le_of_lt_pSec hi⟩, Nat.testBit_two_pow_self⟩) _

/-- A codeword is a word whose check bits and last bit are those ENCODE would place (41_encode.md R133, R134). -/
theorem isCodeword_iff_check_bits {K : Nat} {C : BitSeq} :
    isCodeword K C ↔
      (∀ i < pSec K, bitAt C (2 ^ i) = checkBit K i C) ∧ bitAt C (nBits K) = protectedParity K C := by
  rw [isCodeword, hammingEvaluate, Prod.mk.injEq, syndrome_eq_zero_iff, overallParityOk, beq_iff_eq,
    overallParityPosition, eq_comm (a := protectedParity K C)]
  refine and_congr_left fun _ => forall₂_congr fun i hi => ?_
  rw [syndromeBit_eq_xor_checkBit C hi, bne_eq_false_iff_eq]

/-- Every encoded word is a codeword (41_encode.md R136). -/
theorem isCodeword_hammingEncode (K : Nat) (D : BitSeq) : isCodeword K (hammingEncode K D) :=
  isCodeword_iff_check_bits.2 ⟨fun _ => bitAt_hammingEncode_check D, bitAt_hammingEncode_overall K D⟩

theorem isCodeword_replicate_false (K : Nat) : isCodeword K (List.replicate (nBits K) false) := by
  have hzero : bitAt (List.replicate (nBits K) false) = fun _ => false := funext (bitAt_replicate_false _)
  simp only [isCodeword_iff_parities, syndromeBit, hzero, xorOver_false, implies_true, and_self]

theorem bitAt_zipWith_xor {C C' : BitSeq} (h : C.length = C'.length) (p : Nat) :
    bitAt (List.zipWith Bool.xor C C') p = Bool.xor (bitAt C p) (bitAt C' p) := by
  simp only [bitAt, List.getD_eq_getElem?_getD, List.getElem?_zipWith]
  by_cases hp : seqIndex p < C.length
  · simp [hp, h ▸ hp]
  · simp [List.getElem?_eq_none (Nat.le_of_not_lt hp), List.getElem?_eq_none (h ▸ Nat.le_of_not_lt hp)]

/-- The exclusive or of two codewords is a codeword: every parity of it is the exclusive or of theirs. -/
theorem isCodeword_zipWith_xor {K : Nat} {C C' : BitSeq} (hl : C.length = C'.length) (h : isCodeword K C)
    (h' : isCodeword K C') : isCodeword K (List.zipWith Bool.xor C C') := by
  obtain ⟨hsyn, hall⟩ := isCodeword_iff_parities.1 h
  obtain ⟨hsyn', hall'⟩ := isCodeword_iff_parities.1 h'
  have hbit : bitAt (List.zipWith Bool.xor C C') = fun p => Bool.xor (bitAt C p) (bitAt C' p) :=
    funext (bitAt_zipWith_xor hl)
  refine isCodeword_iff_parities.2 ⟨fun i hi => ?_, ?_⟩
  · rw [syndromeBit, hbit, xorOver_xor]
    exact congrArg₂ Bool.xor (hsyn i hi) (hsyn' i hi)
  · rw [hbit, xorOver_xor, hall, hall', Bool.xor_false]

/-! ## The data of a codeword (41_encode.md R132, 43_decode.md R196) -/

theorem extractData_hammingEncode {K : Nat} {D : BitSeq} (hD : D.length = K) :
    extractData K (hammingEncode K D) = D :=
  List.ext_getElem (by simp [hD]) fun j h1 _ => by
    rw [getElem_extractData, bitAt_hammingEncode_data hD j (by simpa using h1)]

theorem extractData_replicate_false (K n : Nat) :
    extractData K (List.replicate n false) = List.replicate K false := by
  rw [extractData, funext (bitAt_replicate_false n), List.map_const', length_dataPositions]

theorem extractData_zipWith_xor {K : Nat} {C C' : BitSeq} (h : C.length = C'.length) :
    extractData K (List.zipWith Bool.xor C C') = List.zipWith Bool.xor (extractData K C) (extractData K C') := by
  rw [extractData, extractData, extractData, List.zipWith_map, List.zipWith_self]
  exact List.map_congr_left fun p _ => bitAt_zipWith_xor h p

/-- A codeword is known by its data: the check bits read nothing but the data positions, and the last bit nothing but
the others. -/
theorem eq_of_isCodeword_of_extractData_eq {K : Nat} {C C' : BitSeq} (hC : C.length = nBits K)
    (hC' : C'.length = nBits K) (h : isCodeword K C) (h' : isCodeword K C')
    (hdata : extractData K C = extractData K C') : C = C' := by
  obtain ⟨hcheck, hlast⟩ := isCodeword_iff_check_bits.1 h
  obtain ⟨hcheck', hlast'⟩ := isCodeword_iff_check_bits.1 h'
  have hdataAt : ∀ p ∈ dataPositions K, bitAt C p = bitAt C' p := List.map_inj_left.1 hdata
  have hprotected : ∀ p, 1 ≤ p → p ≤ K + pSec K → bitAt C p = bitAt C' p := by
    intro p h1 h2
    rcases mem_sec_or_data_iff.2 ⟨h1, h2⟩ with hsec | hmem
    · obtain ⟨i, hi, rfl⟩ := mem_secParityPositions.1 hsec
      rw [hcheck i hi, hcheck' i hi]
      exact checkBit_congr fun q hq1 hq2 hq => hdataAt q (mem_dataPositions.2 ⟨⟨hq1, hq2⟩, hq⟩)
    · exact hdataAt p hmem
  refine ext_bitAt (hC.trans hC'.symm) fun p h1 h2 => ?_
  by_cases hp : p ≤ K + pSec K
  · exact hprotected p h1 hp
  · obtain rfl : p = nBits K := by rw [nBits_eq] at hC ⊢; omega
    rw [hlast, hlast', protectedParity_congr hprotected]

/-- `Encode(D)` is the one codeword whose data is `D`. -/
theorem eq_hammingEncode {K : Nat} {C D : BitSeq} (hC : C.length = nBits K) (h : isCodeword K C)
    (hdata : extractData K C = D) : C = hammingEncode K D := by
  have hD : D.length = K := by simp [← hdata]
  exact eq_of_isCodeword_of_extractData_eq hC (by simp) h (isCodeword_hammingEncode K D)
    (hdata.trans (extractData_hammingEncode hD).symm)

/-! ## Decoding a codeword, and what a reliable decode leaves (43_decode.md R193, R194) -/

/-- DECODE finds no error in a codeword and reads its data. -/
theorem hammingDecode_of_isCodeword {K : Nat} {C : BitSeq} (h : isCodeword K C) :
    (hammingDecode K C).cls = .noError ∧ (hammingDecode K C).data = extractData K C := by
  have hcls : classify K (hammingEvaluate K C).1 (hammingEvaluate K C).2 = .noError := by rw [h]; rfl
  refine ⟨hcls, ?_⟩
  simp only [hammingDecode, hcls]
  rfl

/-- Settles O11: an encoded word is a codeword, whose parities are all 0, and its data is the operand. -/
theorem encodedWordsAreConsistent : Obligations.EncodedWordsAreConsistent := by
  intro K D hD
  have hcode := isCodeword_hammingEncode K D
  obtain ⟨hsyn, hall⟩ := isCodeword_iff_parities.1 hcode
  obtain ⟨hcls, hdata⟩ := hammingDecode_of_isCodeword hcode
  exact ⟨hsyn, hall, hcode, hcls, hdata.trans (extractData_hammingEncode hD)⟩

/-- One flip moves the syndrome by the position and inverts the parity check (42_evaluate.md R167). -/
theorem hammingEvaluate_flipBit {K p : Nat} {C : BitSeq} (hC : C.length = nBits K) (h1 : 1 ≤ p) (h2 : p ≤ nBits K) :
    hammingEvaluate K (flipBit C p) =
      (syndrome K C ^^^ (if p ≤ nBits K - 1 then p else 0), !overallParityOk K C) := by
  rw [hammingEvaluate, syndrome_flipBit h1 (hC ▸ h2), overallParityOk_flipBit hC h1 h2]

/-- The three reliable rows of the classification table. -/
theorem reliable_classify_cases {K s : Nat} {ok : Bool} (h : reliableClass (classify K s ok) = true) :
    (s = 0 ∧ ok = true) ∨ (s = 0 ∧ ok = false) ∨ (s ≠ 0 ∧ ok = false ∧ s ≤ nBits K - 1) := by
  by_cases hs : s = 0
  · cases ok
    · exact .inr (.inl ⟨hs, rfl⟩)
    · exact .inl ⟨hs, rfl⟩
  · cases ok
    · by_cases hle : s ≤ nBits K - 1
      · exact .inr (.inr ⟨hs, rfl, hle⟩)
      · rw [classify_anomaly hs (Nat.lt_of_not_le hle)] at h
        cases h
    · rw [classify_double hs] at h
      cases h

theorem correct_zero (C : BitSeq) : correct C 0 = C := if_pos rfl

theorem correct_of_one_le {p : Nat} (C : BitSeq) (h : 1 ≤ p) : correct C p = flipBit C p :=
  if_neg (Nat.ne_of_gt h)

theorem hammingDecode_reliable (K : Nat) (C : BitSeq) : (hammingDecode K C).reliable =
    reliableClass (classify K (syndrome K C) (overallParityOk K C)) := rfl

theorem hammingDecode_working (K : Nat) (C : BitSeq) : (hammingDecode K C).working =
    correct C (flipPosition K (syndrome K C) (classify K (syndrome K C) (overallParityOk K C))) := rfl

@[simp] theorem length_hammingDecode_working (K : Nat) (C : BitSeq) :
    (hammingDecode K C).working.length = C.length := length_correct C _

/-- The working copy of a reliable DECODE is a codeword: the received word is one already, or becomes one by a flip at
`N` or at the position its syndrome names. -/
theorem isCodeword_working {K : Nat} {C : BitSeq} (hC : C.length = nBits K)
    (h : (hammingDecode K C).reliable = true) : isCodeword K (hammingDecode K C).working := by
  rw [hammingDecode_reliable] at h
  rw [hammingDecode_working, isCodeword]
  have hN := one_le_nBits K
  rcases reliable_classify_cases h with ⟨hs, hok⟩ | ⟨hs, hok⟩ | ⟨hs, hok, hle⟩
  · rw [hs, hok, classify_clean, flipPosition, correct_zero, hammingEvaluate, hs, hok]
  · rw [hs, hok, classify_overall, flipPosition, overallParityPosition, correct_of_one_le C hN,
      hammingEvaluate_flipBit hC hN le_rfl, if_neg (by omega), hs, hok]
    rfl
  · rw [hok, classify_single hs hle, flipPosition, correct_of_one_le C (Nat.pos_of_ne_zero hs),
      hammingEvaluate_flipBit hC (Nat.pos_of_ne_zero hs) (by omega), if_pos hle, Nat.xor_self, hok]
    rfl

/-! ## The words the block reports (10_state.md R26) -/

theorem unpackSeq_zero (L : Nat) : unpackSeq (0 : BitVec L) = List.replicate L false := by
  simp [unpackSeq, List.map_const']

theorem reportsCodeword_resetEdge (s : State) : (resetEdge s).ReportsCodeword := by
  intro _
  show isCodeword s.cfg.K (unpackSeq (0 : BitVec (nBits s.cfg.K)))
  rw [unpackSeq_zero]
  exact isCodeword_replicate_false s.cfg.K

/-- An accepted request reports a codeword where it reports one at all, whatever the register held. -/
theorem reportsCodeword_acceptEdge {s : State} {i : Instr} (hi : wellFormed s.cfg.K i = true) :
    (acceptEdge s (opCode i) (resultOf s.cfg i)).ReportsCodeword := by
  intro h
  cases i with
  | encode data =>
    show isCodeword s.cfg.K (unpackSeq (packSeq (nBits s.cfg.K) (hammingEncode s.cfg.K data)))
    rw [unpackSeq_packSeq _ (length_hammingEncode s.cfg.K data)]
    exact isCodeword_hammingEncode s.cfg.K data
  | evaluate cw => simp [opCode] at h
  | decode cw =>
    have hcw : cw.length = nBits s.cfg.K := beq_iff_eq.1 hi
    have hreliable : (hammingDecode s.cfg.K cw).reliable = true := by
      simpa [opCode, resultOf, hammingDecode_reliable] using h
    show isCodeword s.cfg.K (unpackSeq (packSeq (nBits s.cfg.K) (hammingDecode s.cfg.K cw).working))
    rw [unpackSeq_packSeq _ (by simp [hcw])]
    exact isCodeword_working hcw hreliable
  | rsvd => simp [opCode] at h

/-- Settles O31: a reset or accepting edge writes a codeword where it reports one, and an idle edge holds it. -/
theorem everyStepReportsCodewords : Obligations.EveryStepReportsCodewords := by
  intro s t hs h
  rcases step_cases s with ⟨-, hstep⟩ | ⟨-, -, hstep⟩ | ⟨-, -, hstep⟩
  all_goals
    rw [hstep, Host.Outcome.next.injEq] at h
    subst h
  · exact reportsCodeword_resetEdge (takeInputs s)
  · rw [← opCode_decodeReq s.cfg.K (portsNow s).reqOp (portsNow s).reqCw (portsNow s).reqData]
    exact reportsCodeword_acceptEdge (s := takeInputs s) (wellFormed_decodeReq ..)
  · exact hs

/-! ## ENCODE at the ports (41_encode.md R132 to R135) -/

theorem xorOver_portAt_packSeq {L : Nat} {C : BitSeq} (hC : C.length = L) {S : List Nat}
    (hS : ∀ p ∈ S, 1 ≤ p ∧ p ≤ L) : xorOver S (portAt (packSeq L C)) = xorOver S (bitAt C) :=
  xorOver_congr fun p hp => portAt_packSeq C hC p (hS p hp).1 (hS p hp).2

/-- Settles O8: the codeword is the encoded operand, read back from the port position by position. -/
theorem encodeReportsTheCodeword : Obligations.EncodeReportsTheCodeword := by
  intro s D hD
  have hlen := length_hammingEncode s.cfg.K D
  have hport := portAt_packSeq (hammingEncode s.cfg.K D) hlen
  refine ⟨packSeq _ (hammingEncode s.cfg.K D), exec_of_wellFormed (beq_iff_eq.2 hD), fun j p b hp hb => ?_,
    fun i hi => ?_, ?_⟩
  · obtain ⟨hj, rfl⟩ := List.getElem?_eq_some_iff.1 hp
    obtain ⟨hjD, rfl⟩ := List.getElem?_eq_some_iff.1 hb
    obtain ⟨h1, h2⟩ := (mem_dataPositions.1 (List.getElem_mem hj)).1
    rw [hport _ h1 (Nat.le_succ_of_le h2), bitAt_hammingEncode_data hD j (hD ▸ hjD)]
  · rw [hport _ Nat.one_le_two_pow (two_pow_le_nBits hi), bitAt_hammingEncode_check D hi, checkBit_eq_xorOver,
      xorOver_portAt_packSeq hlen]
    intro p hp
    obtain ⟨h1, h2⟩ := mem_positions.1 (List.mem_filter.1 hp).1
    exact ⟨h1, Nat.le_succ_of_le h2⟩
  · rw [hport _ (one_le_nBits _) le_rfl, bitAt_hammingEncode_overall, protectedParity, xorOver_portAt_packSeq hlen]
    intro p hp
    obtain ⟨h1, h2⟩ := mem_positions.1 hp
    exact ⟨h1, h2.trans (Nat.sub_le _ _)⟩

/-! ## The code is linear (41_encode.md R135) -/

theorem hammingEncode_zipWith_xor {K : Nat} {D E : BitSeq} (hD : D.length = K) (hE : E.length = K) :
    hammingEncode K (List.zipWith Bool.xor D E) = List.zipWith Bool.xor (hammingEncode K D) (hammingEncode K E) := by
  have hlen : (hammingEncode K D).length = (hammingEncode K E).length := by simp
  refine (eq_hammingEncode (by simp) ?_ ?_).symm
  · exact isCodeword_zipWith_xor hlen (isCodeword_hammingEncode K D) (isCodeword_hammingEncode K E)
  · rw [extractData_zipWith_xor hlen, extractData_hammingEncode hD, extractData_hammingEncode hE]

theorem hammingEncode_replicate_false (K : Nat) :
    hammingEncode K (List.replicate K false) = List.replicate (nBits K) false :=
  (eq_hammingEncode List.length_replicate (isCodeword_replicate_false K) (extractData_replicate_false K _)).symm

/-- Settles O10: the exclusive or of two encoded words, and the all-zero word, are codewords with the right data. -/
theorem encodeIsLinear : Obligations.EncodeIsLinear :=
  ⟨fun _ _ _ => hammingEncode_zipWith_xor, hammingEncode_replicate_false, by decide⟩

/-! ## Operands of another length (41_encode.md R131, 42_evaluate.md R161, 43_decode.md R191) -/

theorem exec_encode_of_length_ne {s : State} {D : BitSeq} (h : D.length ≠ s.cfg.K) :
    exec (.encode D) s = .refused (.wrongLength D.length s.cfg.K) := if_neg h

theorem exec_evaluate_of_length_ne {s : State} {C : BitSeq} (h : C.length ≠ nBits s.cfg.K) :
    exec (.evaluate C) s = .refused (.wrongLength C.length (nBits s.cfg.K)) := if_neg h

theorem exec_decode_of_length_ne {s : State} {C : BitSeq} (h : C.length ≠ nBits s.cfg.K) :
    exec (.decode C) s = .refused (.wrongLength C.length (nBits s.cfg.K)) := if_neg h

/-- Settles O21: the length checks of the three meanings, and the decoder unpacks whole ports. -/
theorem wrongLengthOperandRefused : Obligations.WrongLengthOperandRefused :=
  ⟨fun _ _ => exec_encode_of_length_ne,
    fun _ _ h => ⟨exec_evaluate_of_length_ne h, exec_decode_of_length_ne h⟩, fun _ _ => wellFormed_decodeReq ..⟩

end Sys2Proof.Machine

namespace Sys2Proof.Machine

/-! ## The error algebra (42_evaluate.md R167) -/

/-- The syndrome that flips at the positions of `E` leave in a codeword: the XOR of those in `[1, N-1]`. -/
def flipSyndrome (K : Nat) (E : List Nat) : Nat :=
  (E.filter (fun p => decide (p ≤ nBits K - 1))).foldr (fun p acc => p ^^^ acc) 0

theorem le_nBits_of_protected {K p : Nat} (h : p ≤ nBits K - 1) : p ≤ nBits K := h.trans (Nat.sub_le _ _)

theorem flipAll_singleton (C : BitSeq) (p : Nat) : flipAll C [p] = flipBit C p := rfl

@[simp] theorem flipSyndrome_nil (K : Nat) : flipSyndrome K [] = 0 := rfl

theorem flipSyndrome_cons_of_le {K p : Nat} (E : List Nat) (h : p ≤ nBits K - 1) :
    flipSyndrome K (p :: E) = p ^^^ flipSyndrome K E := by
  simp [flipSyndrome, h]

theorem flipSyndrome_cons_last (K : Nat) (E : List Nat) : flipSyndrome K (nBits K :: E) = flipSyndrome K E := by
  have hlast : ¬ nBits K ≤ nBits K - 1 := by have := one_le_nBits K; omega
  simp only [flipSyndrome, List.filter_cons, decide_eq_false hlast, Bool.false_eq_true, if_false]

theorem flipSyndrome_cons {K p : Nat} (E : List Nat) (hp : p ≤ nBits K) :
    flipSyndrome K (p :: E) = (if p ≤ nBits K - 1 then p else 0) ^^^ flipSyndrome K E := by
  by_cases h : p ≤ nBits K - 1
  · rw [flipSyndrome_cons_of_le E h, if_pos h]
  · obtain rfl : p = nBits K := by omega
    rw [flipSyndrome_cons_last, if_neg h, Nat.zero_xor]

/-- A run of flips adds its syndrome to the word's, whatever the word. -/
theorem syndrome_flipAll {K : Nat} {C : BitSeq} (hC : C.length = nBits K) {E : List Nat}
    (hE : ∀ p ∈ E, 1 ≤ p ∧ p ≤ nBits K) : syndrome K (flipAll C E) = syndrome K C ^^^ flipSyndrome K E := by
  induction E generalizing C with
  | nil => exact (Nat.xor_zero _).symm
  | cons p E ih =>
    obtain ⟨⟨h1, h2⟩, hE⟩ := List.forall_mem_cons.1 hE
    calc syndrome K (flipAll (flipBit C p) E)
        = syndrome K (flipBit C p) ^^^ flipSyndrome K E := ih (by simpa using hC) hE
      _ = (syndrome K C ^^^ (if p ≤ nBits K - 1 then p else 0)) ^^^ flipSyndrome K E := by
        rw [syndrome_flipBit h1 (hC ▸ h2)]
      _ = syndrome K C ^^^ flipSyndrome K (p :: E) := by rw [Nat.xor_assoc, flipSyndrome_cons E h2]

/-- A run of flips inverts the parity check exactly when it is of odd length, whatever the word. -/
theorem overallParityOk_flipAll {K : Nat} {C : BitSeq} (hC : C.length = nBits K) {E : List Nat}
    (hE : ∀ p ∈ E, 1 ≤ p ∧ p ≤ nBits K) :
    overallParityOk K (flipAll C E) = (overallParityOk K C == decide (E.length % 2 = 0)) := by
  induction E generalizing C with
  | nil => exact (beq_true _).symm
  | cons p E ih =>
    obtain ⟨⟨h1, h2⟩, hE⟩ := List.forall_mem_cons.1 hE
    have hparity : decide ((p :: E).length % 2 = 0) = !decide (E.length % 2 = 0) := by
      rw [List.length_cons, ← decide_not, decide_eq_decide]
      omega
    calc overallParityOk K (flipAll (flipBit C p) E)
        = (overallParityOk K (flipBit C p) == decide (E.length % 2 = 0)) := ih (by simpa using hC) hE
      _ = ((!overallParityOk K C) == decide (E.length % 2 = 0)) := by rw [overallParityOk_flipBit hC h1 h2]
      _ = (overallParityOk K C == decide ((p :: E).length % 2 = 0)) := by
        rw [hparity]
        cases overallParityOk K C <;> simp

/-- R167 on an encoded word, whose own syndrome is 0 and whose parity check holds. -/
theorem hammingEvaluate_flipAll_hammingEncode {K : Nat} (D : BitSeq) {E : List Nat}
    (hE : ∀ p ∈ E, 1 ≤ p ∧ p ≤ nBits K) :
    hammingEvaluate K (flipAll (hammingEncode K D) E) = (flipSyndrome K E, decide (E.length % 2 = 0)) := by
  obtain ⟨hsyn, hok⟩ := Prod.mk.inj (isCodeword_hammingEncode K D)
  rw [hammingEvaluate, syndrome_flipAll (by simp) hE, overallParityOk_flipAll (by simp) hE, hsyn, hok,
    Nat.zero_xor, Bool.true_beq]

theorem hammingEvaluate_one_flip {K p : Nat} (D : BitSeq) (h1 : 1 ≤ p) (h2 : p ≤ nBits K - 1) :
    hammingEvaluate K (flipBit (hammingEncode K D) p) = (p, false) := by
  rw [← flipAll_singleton, hammingEvaluate_flipAll_hammingEncode D (by simp [h1, le_nBits_of_protected h2]),
    flipSyndrome_cons_of_le _ h2]
  simp

theorem hammingEvaluate_last_flip (K : Nat) (D : BitSeq) :
    hammingEvaluate K (flipBit (hammingEncode K D) (nBits K)) = (0, false) := by
  rw [← flipAll_singleton, hammingEvaluate_flipAll_hammingEncode D (by simp [one_le_nBits]), flipSyndrome_cons_last]
  rfl

theorem hammingEvaluate_two_flips {K p q : Nat} (D : BitSeq) (hp1 : 1 ≤ p) (hp2 : p ≤ nBits K - 1) (hq1 : 1 ≤ q)
    (hq2 : q ≤ nBits K - 1) : hammingEvaluate K (flipAll (hammingEncode K D) [p, q]) = (p ^^^ q, true) := by
  rw [hammingEvaluate_flipAll_hammingEncode D
      (by simp [hp1, hq1, le_nBits_of_protected hp2, le_nBits_of_protected hq2]),
    flipSyndrome_cons_of_le _ hp2, flipSyndrome_cons_of_le _ hq2]
  simp

theorem hammingEvaluate_flip_and_last_flip {K p : Nat} (D : BitSeq) (h1 : 1 ≤ p) (h2 : p ≤ nBits K - 1) :
    hammingEvaluate K (flipAll (hammingEncode K D) [p, nBits K]) = (p, true) := by
  rw [hammingEvaluate_flipAll_hammingEncode D (by simp [h1, one_le_nBits, le_nBits_of_protected h2]),
    flipSyndrome_cons_of_le _ h2, flipSyndrome_cons_last]
  simp

/-- Settles O15: flips add up in the syndrome and in the parity, and an encoded word starts both at nothing; the cases
of one, two and three flips are values of that sum. -/
theorem errorAlgebra : Obligations.ErrorAlgebra := by
  refine ⟨fun K D E _ _ hE => Prod.mk.inj (hammingEvaluate_flipAll_hammingEncode D hE), fun K D _ => ⟨?_, ?_, ?_, ?_⟩,
    fun D _ => ⟨?_, by decide, ?_⟩⟩
  · exact fun p => hammingEvaluate_one_flip D
  · exact hammingEvaluate_last_flip K D
  · intro p q hp1 hp2 hq1 hq2 hne
    exact ⟨hammingEvaluate_two_flips D hp1 hp2 hq1 hq2, Nat.xor_ne_zero_iff.2 hne⟩
  · exact fun p => hammingEvaluate_flip_and_last_flip D
  · exact hammingEvaluate_flipAll_hammingEncode D (by decide)
  · exact hammingEvaluate_flipAll_hammingEncode D (by decide)

/-! ## EVALUATE of the constant words (42_evaluate.md R165) -/

theorem bitAt_replicate_true {n p : Nat} (h1 : 1 ≤ p) (h2 : p ≤ n) : bitAt (List.replicate n true) p = true := by
  rw [bitAt_eq_getElem _ p h1 (by simpa using h2), List.getElem_replicate]

/-- The exclusive or of ones is the parity of their number. -/
theorem xorOver_eq_odd_length {S : List Nat} {f : Nat → Bool} (h : ∀ b ∈ S, f b = true) :
    xorOver S f = decide (S.length % 2 = 1) := by
  induction S with
  | nil => rfl
  | cons a S ih =>
    obtain ⟨ha, hS⟩ := List.forall_mem_cons.1 h
    rw [xorOver_cons, ha, ih hS, Bool.true_xor, List.length_cons, ← decide_not, decide_eq_decide]
    omega

theorem overallParityOk_replicate_true (K : Nat) :
    overallParityOk K (List.replicate (nBits K) true) = decide (nBits K % 2 = 0) := by
  rw [overallParityOk_eq, xorOver_eq_odd_length fun p hp => ?_, length_positions_one, ← decide_not, decide_eq_decide]
  · omega
  · obtain ⟨h1, h2⟩ := mem_positions.1 hp
    exact bitAt_replicate_true h1 h2

theorem syndromeBit_replicate_true (K i : Nat) :
    syndromeBit K i (List.replicate (nBits K) true) = decide ((covered i (nBits K - 1)).length % 2 = 1) :=
  xorOver_eq_odd_length fun _ hp =>
    have ⟨⟨h1, h2⟩, _⟩ := mem_covered.1 hp
    bitAt_replicate_true h1 (le_nBits_of_protected h2)

/-- Settles O14: the all-zero word is a codeword, and over the all-ones word every parity is that of a number of
positions. -/
theorem evaluateConstantWords : Obligations.EvaluateConstantWords := by
  intro K
  refine ⟨isCodeword_replicate_false K, ?_, fun i hi => ?_⟩
  · rw [hammingEvaluate, overallParityOk_replicate_true, decide_eq_true_eq]
  · rw [hammingEvaluate, testBit_syndrome, syndromeBit_replicate_true, decide_eq_true hi, Bool.true_and,
      decide_eq_true_eq, covered]

/-! ## EVALUATE at the ports (42_evaluate.md R162 to R166) -/

/-- The accumulator of R163 is a sum by powers of two. -/
theorem foldl_digits_eq_sum (b : Nat → Bool) (n : Nat) :
    (List.range n).foldl (fun s i => if b i then s + 2 ^ i else s) 0 =
      ((List.range n).map fun i => (b i).toNat * 2 ^ i).sum := by
  induction n with
  | zero => rfl
  | succ n ih =>
    rw [List.range_succ, List.foldl_append, ih, List.map_append, List.sum_append]
    cases h : b n <;> simp [h]

theorem syndrome_eq_sum (K : Nat) (C : BitSeq) :
    syndrome K C = ((List.range (pSec K)).map fun i => (syndromeBit K i C).toNat * 2 ^ i).sum :=
  foldl_digits_eq_sum (fun i => syndromeBit K i C) (pSec K)

/-- The syndrome field holds the syndrome bit by bit. -/
theorem getLsbD_zextTo_syndrome {K i : Nat} (C : BitSeq) (hi : i < pSec K) :
    (zextTo (pSec K) (syndrome K C)).getLsbD i = syndromeBit K i C := by
  rw [zextTo, BitVec.getLsbD_ofNat, testBit_syndrome, decide_eq_true hi, Bool.true_and, Bool.true_and]

/-- EVALUATE of an `N`-bit word writes its response and nothing else (42_evaluate.md R165). -/
theorem exec_evaluate {s : State} {C : BitSeq} (hC : C.length = nBits s.cfg.K) :
    exec (.evaluate C) s = .next (acceptEdge s 1 (evaluateResult s.cfg C)) :=
  exec_of_wellFormed (i := .evaluate C) (beq_iff_eq.2 hC)

/-- Settles O12: the register takes `evaluateResult`, whose two fields are R163's sum and R164's comparison. -/
theorem evaluateReportsSyndromeAndParity : Obligations.EvaluateReportsSyndromeAndParity := by
  intro s C hC
  refine ⟨zextTo _ (syndrome s.cfg.K C), overallParityOk s.cfg.K C, exec_evaluate hC,
    fun i hi => getLsbD_zextTo_syndrome C hi, ?_, rfl, overallParityOk_eq s.cfg.K C⟩
  rw [toNat_zextTo (syndrome_lt _ _), syndrome_eq_sum]
  rfl

/-- The edge of an EVALUATE request: neither the register, nor `req_data`, nor the cycles to come enter the response
(42_evaluate.md R166). -/
theorem step_evaluate_request (c : Config) (cw : BitVec (nBits c.K)) (data : BitVec c.K) (ps : List (PortIn c))
    (r : Response c) :
    step { cfg := c, inputs := requestCycle c 1 cw data :: ps, rsp := r } =
      .next { cfg := c, inputs := ps, rsp := { evaluateResult c (unpackSeq cw) with valid := true, op := 1 } } :=
  calc step { cfg := c, inputs := requestCycle c 1 cw data :: ps, rsp := r }
      = exec (decodeReq c.K 1 cw data) { cfg := c, inputs := ps, rsp := r } :=
        stepRunsTheRequest c (requestCycle c 1 cw data) ps r rfl rfl
    _ = exec (.evaluate (unpackSeq cw)) { cfg := c, inputs := ps, rsp := r } := by rw [decodeReq_one]
    _ = _ := exec_evaluate (length_unpackSeq cw)

/-- Settles O13: both edges write the one response of the codeword. -/
theorem evaluateIsPure : Obligations.EvaluateIsPure := fun c cw d1 d2 ps1 ps2 r1 r2 =>
  ⟨_, _, step_evaluate_request c cw d1 ps1 r1, step_evaluate_request c cw d2 ps2 r2, rfl, rfl⟩

end Sys2Proof.Machine

namespace Sys2Proof.Machine

/-! ## What DECODE answers, from what EVALUATE finds (43_decode.md R193 to R198) -/

/-- The whole outcome follows from the evaluated pair and the row it selects. -/
theorem hammingDecode_of_evaluate {K s : Nat} {ok : Bool} {C : BitSeq} {cls : Classification}
    (h : hammingEvaluate K C = (s, ok)) (hcls : classify K s ok = cls) :
    hammingDecode K C =
      { data := extractData K (correct C (flipPosition K s cls)), cls := cls, reliable := reliableClass cls,
        syndrome := s, overallParityOk := ok, flipPos := flipPosition K s cls,
        working := correct C (flipPosition K s cls) } := by
  subst hcls
  rw [hammingDecode, h]

/-- An even number of flips leaves the parity check of an encoded word right (42_evaluate.md R167). -/
theorem hammingEvaluate_even_flips {K : Nat} (D : BitSeq) {E : List Nat} (hE : ∀ p ∈ E, 1 ≤ p ∧ p ≤ nBits K)
    (hlen : E.length % 2 = 0) : hammingEvaluate K (flipAll (hammingEncode K D) E) = (flipSyndrome K E, true) := by
  rw [hammingEvaluate_flipAll_hammingEncode D hE, decide_eq_true hlen]

/-- An odd number of flips breaks it. -/
theorem hammingEvaluate_odd_flips {K : Nat} (D : BitSeq) {E : List Nat} (hE : ∀ p ∈ E, 1 ≤ p ∧ p ≤ nBits K)
    (hlen : E.length % 2 = 1) : hammingEvaluate K (flipAll (hammingEncode K D) E) = (flipSyndrome K E, false) := by
  rw [hammingEvaluate_flipAll_hammingEncode D hE, decide_eq_false (by omega)]

/-! ## One and two flips (43_decode.md R202) -/

theorem flipBit_flipBit {C : BitSeq} {p : Nat} (h1 : 1 ≤ p) (h2 : p ≤ C.length) : flipBit (flipBit C p) p = C :=
  ext_bitAt (by simp) fun q hq _ => by
    rw [bitAt_flipBit _ p q h1 (by simpa using h2) hq, bitAt_flipBit C p q h1 h2 hq, Bool.xor_assoc, Bool.xor_self,
      Bool.xor_false]

/-- One wrong bit is found and put right. -/
theorem hammingDecode_one_flip {K p : Nat} {D : BitSeq} (hD : D.length = K) (h1 : 1 ≤ p) (h2 : p ≤ nBits K) :
    hammingDecode K (flipBit (hammingEncode K D) p) =
      { data := D, cls := if p = nBits K then .singleErrorOverallParity else .singleErrorCorrected, reliable := true,
        syndrome := if p = nBits K then 0 else p, overallParityOk := false, flipPos := p,
        working := hammingEncode K D } := by
  have hcorrect : correct (flipBit (hammingEncode K D) p) p = hammingEncode K D := by
    rw [correct_of_one_le _ h1, flipBit_flipBit h1 (by simpa using h2)]
  by_cases hp : p = nBits K
  · subst hp
    rw [hammingDecode_of_evaluate (hammingEvaluate_last_flip K D) (classify_overall K), flipPosition,
      overallParityPosition, hcorrect, extractData_hammingEncode hD, if_pos rfl, if_pos rfl, reliableClass]
  · have hle : p ≤ nBits K - 1 := by omega
    rw [hammingDecode_of_evaluate (hammingEvaluate_one_flip D h1 hle) (classify_single (Nat.ne_of_gt h1) hle),
      flipPosition, hcorrect, extractData_hammingEncode hD, if_neg hp, if_neg hp, reliableClass]

theorem flipAll_pair (C : BitSeq) (p q : Nat) : flipAll C [p, q] = flipBit (flipBit C p) q := rfl

/-- Two distinct positions never cancel in the syndrome, also where one of them is `N`. -/
theorem flipSyndrome_pair_ne_zero {K p q : Nat} (hp1 : 1 ≤ p) (hp2 : p ≤ nBits K) (hq1 : 1 ≤ q) (hq2 : q ≤ nBits K)
    (hne : p ≠ q) : flipSyndrome K [p, q] ≠ 0 := by
  rw [flipSyndrome_cons _ hp2, flipSyndrome_cons _ hq2, flipSyndrome_nil, Nat.xor_zero, Nat.xor_ne_zero_iff]
  split_ifs <;> omega

/-- Two wrong bits are detected. -/
theorem hammingDecode_two_flips {K p q : Nat} (D : BitSeq) (hp1 : 1 ≤ p) (hp2 : p ≤ nBits K) (hq1 : 1 ≤ q)
    (hq2 : q ≤ nBits K) (hne : p ≠ q) :
    (hammingDecode K (flipBit (flipBit (hammingEncode K D) p) q)).cls = .doubleErrorDetected ∧
      (hammingDecode K (flipBit (flipBit (hammingEncode K D) p) q)).reliable = false := by
  have heval : hammingEvaluate K (flipAll (hammingEncode K D) [p, q]) = (flipSyndrome K [p, q], true) :=
    hammingEvaluate_even_flips D (by simp [hp1, hp2, hq1, hq2]) (by simp)
  rw [← flipAll_pair, hammingDecode_of_evaluate heval (classify_double (flipSyndrome_pair_ne_zero hp1 hp2 hq1 hq2 hne))]
  exact ⟨rfl, rfl⟩

/-- Settles O17: an encoded word is a codeword; one flip leaves a pair that names its position; two flips leave a
nonzero syndrome beside an even parity. -/
theorem secDedGuarantee : Obligations.SecDedGuarantee := by
  intro K D _ hD
  obtain ⟨-, -, -, hcls, hdata⟩ := encodedWordsAreConsistent K D hD
  refine ⟨⟨hcls, hdata⟩, fun p h1 h2 => ?_, fun p q => hammingDecode_two_flips D⟩
  rw [hammingDecode_one_flip hD h1 h2]
  exact ⟨rfl, rfl, rfl, rfl, rfl⟩

/-! ## Injected errors (48_host_interface.md R235, R237, 43_decode.md R202) -/

theorem injectSingle_drawn {K : Nat} {C : BitSeq} (hC : C.length = nBits K) (draw : PositionDraw K) :
    injectSingle K (charsOfSeq C) none draw = .ok (flipBit C draw.p, draw.p) := by
  simp only [injectSingle, seqOfChars_charsOfSeq hC, injectSingleSeq]

theorem injectDouble_drawn {K : Nat} {C : BitSeq} (hC : C.length = nBits K) (draw : PairDraw K) :
    injectDouble K (charsOfSeq C) none none draw = .ok (flipBit (flipBit C draw.p1) draw.p2, draw.p1, draw.p2) := by
  simp only [injectDouble, seqOfChars_charsOfSeq hC, injectDoubleSeq]

/-- Settles O43: a draw is one position of the codeword, or two distinct ones. -/
theorem everyInjectionIsHandled : Obligations.EveryInjectionIsHandled := by
  intro K D one two _ hD
  have hlen := length_hammingEncode K D
  refine ⟨⟨_, injectSingle_drawn hlen one, ?_⟩, ⟨_, injectDouble_drawn hlen two, ?_⟩⟩
  · rw [hammingDecode_one_flip hD one.one_le one.le_n]
    exact ⟨rfl, rfl, rfl⟩
  · exact hammingDecode_two_flips D two.one_le1 two.le_n1 two.one_le2 two.le_n2 two.distinct

/-! ## DECODE at the ports (43_decode.md R193 to R198) -/

/-- DECODE of an `N`-bit word writes its response and nothing else (43_decode.md R198). -/
theorem exec_decode {s : State} {C : BitSeq} (hC : C.length = nBits s.cfg.K) :
    exec (.decode C) s = .next (acceptEdge s 2 (decodeResult s.cfg C)) :=
  exec_of_wellFormed (i := .decode C) (beq_iff_eq.2 hC)

/-- A row of R193's table, on the fields of the response. -/
theorem decodeResult_of_classify {c : Config} {C : BitSeq} {cls : Classification}
    (h : classify c.K (syndrome c.K C) (overallParityOk c.K C) = cls) :
    (decodeResult c C).cls = classCode cls ∧
      (decodeResult c C).flipPos.toNat = flipPosition c.K (syndrome c.K C) cls ∧
      (decodeResult c C).reliable = reliableClass cls := by
  subst h
  exact ⟨decodeResult_cls c C, toNat_decodeResult_flipPos c C, decodeResult_reliable c C⟩

/-- The reported word is the working copy (43_decode.md R194). -/
theorem portAt_decodeResult_cw {c : Config} {C : BitSeq} (hC : C.length = nBits c.K) {p : Nat} (h1 : 1 ≤ p)
    (h2 : p ≤ nBits c.K) : portAt (decodeResult c C).cw p = bitAt (hammingDecode c.K C).working p :=
  portAt_packSeq _ ((length_hammingDecode_working c.K C).trans hC) p h1 h2

/-- The working copy is the received word with the bit at the reported flip position inverted (43_decode.md R194). -/
theorem bitAt_hammingDecode_working {c : Config} {C : BitSeq} (hC : C.length = nBits c.K) {p : Nat} (h1 : 1 ≤ p) :
    bitAt (hammingDecode c.K C).working p =
      Bool.xor (bitAt C p) (decide (p = (decodeResult c C).flipPos.toNat)) := by
  rw [toNat_decodeResult_flipPos, hammingDecode_working]
  exact bitAt_correct C _ p (hC ▸ flipPosition_le ..) h1

/-- The reported data is read from the reported word (43_decode.md R196). -/
theorem getLsbD_decodeResult_data {c : Config} {C : BitSeq} (hC : C.length = nBits c.K) {j p : Nat}
    (hp : (dataPositions c.K)[j]? = some p) :
    (decodeResult c C).data.getLsbD (c.K - 1 - j) = portAt (decodeResult c C).cw p := by
  obtain ⟨hj, rfl⟩ := List.getElem?_eq_some_iff.1 hp
  obtain ⟨h1, h2⟩ := (mem_dataPositions.1 (List.getElem_mem hj)).1
  have hlen : (extractData c.K (hammingDecode c.K C).working).length = c.K := by simp
  have hjK : j < c.K := by simpa using hj
  calc (decodeResult c C).data.getLsbD (c.K - 1 - j)
      = (extractData c.K (hammingDecode c.K C).working)[j] := getLsbD_packSeq _ hlen j hjK
    _ = bitAt (hammingDecode c.K C).working (dataPositions c.K)[j] := getElem_extractData ..
    _ = portAt (decodeResult c C).cw (dataPositions c.K)[j] :=
        (portAt_decodeResult_cw hC h1 (Nat.le_succ_of_le h2)).symm

/-- Settles O16: the response is `decodeResult`, whose class, flip position and reliability are one row of the table. -/
theorem decodeClassifiesAndCorrects : Obligations.DecodeClassifiesAndCorrects := by
  intro s C hC
  refine ⟨(acceptEdge s 2 (decodeResult s.cfg C)).rsp, exec_decode hC, rfl, rfl, rfl,
    fun i hi => getLsbD_zextTo_syndrome C hi, rfl, ?_, ?_, ?_, ?_, ?_,
    fun p h1 h2 => (portAt_decodeResult_cw hC h1 h2).trans (bitAt_hammingDecode_working hC h1),
    fun j p => getLsbD_decodeResult_data hC⟩
  all_goals
    rw [acceptEdge_syndrome, acceptEdge_ovpOk, toNat_decodeResult_syndrome, decodeResult_ovpOk]
    intro hs hok
  · exact decodeResult_of_classify (by rw [hs, hok, classify_clean])
  · exact decodeResult_of_classify (by rw [hs, hok, classify_overall])
  · intro hle
    exact decodeResult_of_classify (by rw [hok, classify_single hs hle])
  · intro hlt
    exact decodeResult_of_classify (by rw [hok, classify_anomaly hs hlt])
  · exact decodeResult_of_classify (by rw [hok, classify_double hs])

/-! ## The anomaly class (43_decode.md R201) -/

/-- The range test of the table's last row. -/
theorem lt_of_classify_eq_anomaly {K s : Nat} {ok : Bool} (h : classify K s ok = .uncorrectableAnomaly) :
    nBits K - 1 < s := by
  unfold classify at h
  split_ifs at h
  omega

theorem headroom_pos_iff (K : Nat) : 0 < headroom K ↔ nBits K < 2 ^ pSec K := Nat.sub_pos_iff_lt

theorem headroom_pos_of_anomaly {K : Nat} {C : BitSeq} (h : (hammingDecode K C).cls = .uncorrectableAnomaly) :
    0 < headroom K := by
  have hlo : nBits K - 1 < syndrome K C := lt_of_classify_eq_anomaly h
  have hhi := syndrome_lt K C
  rw [headroom_pos_iff]
  omega

/-- An odd number of flips whose syndrome is above `N-1` is an anomaly. -/
theorem cls_hammingDecode_of_lt_flipSyndrome {K : Nat} (D : BitSeq) {E : List Nat}
    (hE : ∀ p ∈ E, 1 ≤ p ∧ p ≤ nBits K) (hlen : E.length % 2 = 1) (h : nBits K - 1 < flipSyndrome K E) :
    (hammingDecode K (flipAll (hammingEncode K D) E)).cls = .uncorrectableAnomaly := by
  rw [hammingDecode_of_evaluate (hammingEvaluate_odd_flips D hE hlen)
    (classify_anomaly (Nat.ne_of_gt (Nat.zero_lt_of_lt h)) h)]

theorem two_pow_xor_of_lt {k t : Nat} (h : t < 2 ^ k) : 2 ^ k ^^^ t = 2 ^ k + t := by
  have hdiv : (2 ^ k ^^^ t) / 2 ^ k = 1 := by
    rw [Nat.xor_div_two_pow, Nat.div_self (Nat.two_pow_pos k), Nat.div_eq_of_lt h, Nat.xor_zero]
  have hmod : (2 ^ k ^^^ t) % 2 ^ k = t := by
    rw [Nat.xor_mod_two_pow, Nat.mod_self, Nat.mod_eq_of_lt h, Nat.zero_xor]
  have hsum := Nat.div_add_mod (2 ^ k ^^^ t) (2 ^ k)
  rwa [hdiv, hmod, Nat.mul_one, eq_comm] at hsum

/-- With headroom `N` lies strictly between two powers of two: it is the last check position and a smaller rest. -/
theorem exists_nBits_eq_two_pow_add {K : Nat} (hK : 1 ≤ K) (h : 0 < headroom K) :
    ∃ t, nBits K = 2 ^ (pSec K - 1) + t ∧ 1 ≤ t ∧ t < 2 ^ (pSec K - 1) := by
  have hlo := two_pow_pred_pSec_lt hK
  have hhi := (headroom_pos_iff K).1 h
  have hdouble : 2 ^ pSec K = 2 ^ (pSec K - 1) * 2 := by
    rw [← Nat.pow_succ, Nat.succ_eq_add_one, Nat.sub_add_cancel (Nat.le_of_succ_le (two_le_pSec hK))]
  have hN := nBits_eq K
  exact ⟨nBits K - 2 ^ (pSec K - 1), by omega⟩

/-- Flips at those two positions and at `N` make a syndrome of `N` beside a wrong parity. -/
theorem exists_anomaly_of_headroom {K : Nat} (hK : 1 ≤ K) (h : 0 < headroom K) :
    ∃ C : BitSeq, C.length = nBits K ∧ (hammingDecode K C).cls = .uncorrectableAnomaly := by
  obtain ⟨t, hN, h1, hlt⟩ := exists_nBits_eq_two_pow_add hK h
  have hpow : 2 ^ (pSec K - 1) ≤ nBits K - 1 := by omega
  have ht : t ≤ nBits K - 1 := by omega
  have hsyn : flipSyndrome K [2 ^ (pSec K - 1), t, nBits K] = nBits K := by
    rw [flipSyndrome_cons_of_le _ hpow, flipSyndrome_cons_of_le _ ht, flipSyndrome_cons_last, flipSyndrome_nil,
      Nat.xor_zero, two_pow_xor_of_lt hlt, hN]
  refine ⟨flipAll (hammingEncode K []) [2 ^ (pSec K - 1), t, nBits K], by simp, ?_⟩
  refine cls_hammingDecode_of_lt_flipSyndrome [] ?_ (by simp) ?_
  · simp [h1, one_le_nBits, Nat.one_le_two_pow, le_nBits_of_protected hpow, le_nBits_of_protected ht]
  · rw [hsyn]
    exact Nat.sub_one_lt_of_le (one_le_nBits K) le_rfl

/-- Three flips in `[1, N-1]` whose positions XOR above `N-1` are an anomaly. -/
theorem cls_hammingDecode_three_flips {K p q r : Nat} (D : BitSeq) (h : ∀ x ∈ [p, q, r], 1 ≤ x ∧ x ≤ nBits K - 1)
    (hxor : nBits K - 1 < p ^^^ q ^^^ r) :
    (hammingDecode K (flipAll (hammingEncode K D) [p, q, r])).cls = .uncorrectableAnomaly := by
  have hp : p ≤ nBits K - 1 := (h p (by simp)).2
  have hq : q ≤ nBits K - 1 := (h q (by simp)).2
  have hr : r ≤ nBits K - 1 := (h r (by simp)).2
  refine cls_hammingDecode_of_lt_flipSyndrome D (fun x hx => ?_) (by simp) ?_
  · obtain ⟨hx1, hx2⟩ := h x hx
    exact ⟨hx1, le_nBits_of_protected hx2⟩
  · rwa [flipSyndrome_cons_of_le _ hp, flipSyndrome_cons_of_le _ hq, flipSyndrome_cons_of_le _ hr, flipSyndrome_nil,
      Nat.xor_zero, ← Nat.xor_assoc]

/-- Settles O18: the syndrome has `P_SEC` digits, so it passes `N-1` exactly where `N` itself is one. -/
theorem anomalyReachableExactlyWithHeadroom : Obligations.AnomalyReachableExactlyWithHeadroom := by
  refine ⟨fun K hK => ⟨exists_anomaly_of_headroom hK, ?_⟩, fun K D p q r _ _ => cls_hammingDecode_three_flips D,
    fun D _ => ⟨?_, cls_hammingDecode_three_flips D (by decide) (by decide)⟩⟩
  · rintro ⟨C, -, hcls⟩
    exact headroom_pos_of_anomaly hcls
  · exact congrArg Prod.fst (hammingEvaluate_odd_flips D (E := [1, 4, 8]) (by decide) rfl)

/-! ## Three and four flips (43_decode.md R203) -/

theorem bitAt_flipAll {C : BitSeq} {E : List Nat} (hE : E.Nodup) (hrange : ∀ p ∈ E, 1 ≤ p ∧ p ≤ C.length) {q : Nat}
    (hq : 1 ≤ q) : bitAt (flipAll C E) q = Bool.xor (bitAt C q) (decide (q ∈ E)) := by
  induction E generalizing C with
  | nil => exact (Bool.xor_false _).symm
  | cons p E ih =>
    obtain ⟨hp, hE⟩ := List.nodup_cons.1 hE
    obtain ⟨⟨h1, h2⟩, hrange⟩ := List.forall_mem_cons.1 hrange
    have hmem : Bool.xor (decide (q = p)) (decide (q ∈ E)) = decide (q ∈ p :: E) := by
      by_cases h : q = p
      · simp [h, hp]
      · simp [h]
    calc bitAt (flipAll (flipBit C p) E) q
        = Bool.xor (bitAt (flipBit C p) q) (decide (q ∈ E)) := ih hE (by simpa using hrange)
      _ = Bool.xor (bitAt C q) (decide (q ∈ p :: E)) := by
        rw [bitAt_flipBit C p q h1 h2 hq, Bool.xor_assoc, hmem]

/-- Flips at distinct positions, a data position among them, change the data. -/
theorem extractData_flipAll_ne {K q : Nat} {C : BitSeq} (hC : C.length = nBits K) {E : List Nat} (hE : E.Nodup)
    (hrange : ∀ p ∈ E, 1 ≤ p ∧ p ≤ nBits K) (hq : q ∈ dataPositions K) (hqE : q ∈ E) :
    extractData K (flipAll C E) ≠ extractData K C := by
  intro h
  have hsame : bitAt (flipAll C E) q = bitAt C q := List.map_inj_left.1 h q hq
  rw [bitAt_flipAll hE (hC ▸ hrange) (mem_dataPositions.1 hq).1.1, decide_eq_true hqE, Bool.xor_true] at hsame
  exact Bool.not_ne_self _ hsame

/-- The word with 1, 2, 4 and 7 flipped: position 7 is a data position. -/
theorem extractData_flips_1_2_4_7_ne {D : BitSeq} (hD : D.length = 8) :
    extractData 8 (flipAll (hammingEncode 8 D) [1, 2, 4, 7]) ≠ D := by
  have hne := extractData_flipAll_ne (length_hammingEncode 8 D) (E := [1, 2, 4, 7]) (q := 7) (by decide) (by decide)
    (by decide) (by decide)
  rwa [extractData_hammingEncode hD] at hne

/-- Settles O19: `1 ^^^ 2 ^^^ 4 = 7` is miscorrected into the word with four flips, which is a codeword of other data;
`1 ^^^ 2 ^^^ 3 = 0` looks like a wrong last bit. -/
theorem moreFlipsCarryNoGuarantee : Obligations.MoreFlipsCarryNoGuarantee := by
  intro D hD
  have hmis : hammingEvaluate 8 (flipAll (hammingEncode 8 D) [1, 2, 4]) = (7, false) :=
    hammingEvaluate_odd_flips D (by decide) rfl
  have hlast : hammingEvaluate 8 (flipAll (hammingEncode 8 D) [1, 2, 3]) = (0, false) :=
    hammingEvaluate_odd_flips D (by decide) rfl
  have hclean : hammingEvaluate 8 (flipAll (hammingEncode 8 D) [1, 2, 4, 7]) = (0, true) :=
    hammingEvaluate_even_flips D (by decide) rfl
  have hdata := extractData_flips_1_2_4_7_ne hD
  rw [hammingDecode_of_evaluate hmis (classify_single (by decide) (by decide)),
    hammingDecode_of_evaluate hlast (classify_overall 8), hammingDecode_of_evaluate hclean (classify_clean 8)]
  exact ⟨⟨rfl, rfl, rfl, hdata⟩, rfl, rfl, hdata⟩

/-! ## Bounds of a legal register (43_decode.md R193, 60_exceptions.md R266) -/

theorem toNat_classCode_le (cls : Classification) : (classCode cls).toNat ≤ 4 := by
  cases cls <;> decide

theorem Response.Legal.toNat_status_le {c : Config} {r : Response c} (h : r.Legal) : r.status.toNat ≤ 1 := by
  rw [h.status_iff]
  split_ifs <;> decide

theorem Response.Legal.toNat_cls_le {c : Config} {r : Response c} (h : r.Legal) : r.cls.toNat ≤ 4 := by
  by_cases hop : r.op = 2
  · rw [h.class_selected hop]
    exact toNat_classCode_le _
  · obtain ⟨-, hcls, -, -⟩ := h.not_decode hop
    simp [hcls]

theorem Response.Legal.toNat_flipPos_le {c : Config} {r : Response c} (h : r.Legal) : r.flipPos.toNat ≤ nBits c.K := by
  by_cases hop : r.op = 2
  · rw [h.flip_selected hop]
    exact flipPosition_le ..
  · obtain ⟨-, -, -, hflip⟩ := h.not_decode hop
    simp [hflip]

/-- A reset edge and an accepting edge leave a legal register, whatever it held (70_reset_and_hazards.md R293). -/
theorem legal_of_writing_edge {s t : State} (hw : (portsNow s).rst = true ∨ (portsNow s).reqValid = true)
    (h : step s = .next t) : t.Legal := by
  rcases step_cases s with ⟨-, hstep⟩ | ⟨-, -, hstep⟩ | ⟨hrst, hreq, -⟩
  · obtain rfl := Host.Outcome.next.inj (hstep.symm.trans h)
    exact legal_resetValue s.cfg
  · obtain rfl := Host.Outcome.next.inj (hstep.symm.trans h)
    rw [← opCode_decodeReq s.cfg.K (portsNow s).reqOp (portsNow s).reqCw (portsNow s).reqData]
    exact legal_acceptEdge (takeInputs s) _
  · simp [hrst, hreq] at hw

/-- Settles O33: a legal register keeps the bounds, and a writing edge leaves a legal one. -/
theorem writingEdgeMakesTheRegisterLegal : Obligations.WritingEdgeMakesTheRegisterLegal := by
  intro s t hw h
  have hlegal : t.rsp.Legal := legal_of_writing_edge hw h
  exact ⟨hlegal, hlegal.toNat_cls_le, hlegal.toNat_status_le, hlegal.toNat_flipPos_le⟩

end Sys2Proof.Machine

namespace Sys2Proof.Machine

/-! ## The host adapter (48_host_interface.md R230, R232, R233) -/

theorem isBinary_iff {ch : Char} : isBinary ch = true ↔ ch = '0' ∨ ch = '1' := by simp [isBinary]

/-- A binary string spells the bits read from it. -/
theorem charsOfSeq_map_eq_one {x : List Char} (h : ∀ ch ∈ x, isBinary ch = true) :
    charsOfSeq (x.map fun ch => ch == '1') = x := by
  rw [charsOfSeq, List.map_map]
  refine (List.map_congr_left fun ch hch => ?_).trans (List.map_id x)
  rcases isBinary_iff.1 (h ch hch) with rfl | rfl <;> rfl

theorem seqOfChars_of_length_ne {L : Nat} {x : List Char} (h : x.length ≠ L) :
    seqOfChars L x = .error (.wrongLength x.length L) := if_pos h

theorem seqOfChars_of_binary {L : Nat} {x : List Char} (hx : x.length = L) (h : ∀ ch ∈ x, isBinary ch = true) :
    seqOfChars L x = .ok (x.map fun ch => ch == '1') := by
  have hlen : (x.map fun ch => ch == '1').length = L := by rw [List.length_map, hx]
  have hseq := seqOfChars_charsOfSeq hlen
  rwa [charsOfSeq_map_eq_one h] at hseq

theorem seqOfChars_of_not_binary {L : Nat} {x : List Char} (hx : x.length = L) (h : ¬ ∀ ch ∈ x, isBinary ch = true) :
    seqOfChars L x = .error (.invalidSymbol (x.findIdx fun ch => !isBinary ch)) := by
  rw [seqOfChars, if_neg (not_not.2 hx), if_neg (List.all_eq_true.not.2 h)]

/-- Only the string of a sequence of the expected length is accepted, and it is read as that sequence. -/
theorem eq_charsOfSeq_of_seqOfChars_eq_ok {L : Nat} {x : List Char} {b : BitSeq} (h : seqOfChars L x = .ok b) :
    b.length = L ∧ x = charsOfSeq b := by
  by_cases hx : x.length = L
  · by_cases hbin : ∀ ch ∈ x, isBinary ch = true
    · rw [seqOfChars_of_binary hx hbin] at h
      cases h
      exact ⟨by rw [List.length_map, hx], (charsOfSeq_map_eq_one hbin).symm⟩
    · rw [seqOfChars_of_not_binary hx hbin] at h
      cases h
  · rw [seqOfChars_of_length_ne hx] at h
    cases h

theorem toPort_of_seqOfChars_eq_error {L : Nat} {x : List Char} {f : Failure} (h : seqOfChars L x = .error f) :
    toPort L x = .error f := by
  rw [toPort, h]
  rfl

/-- The reported index is that of the first element that is not 0 or 1. -/
theorem findIdx_not_isBinary {x : List Char} {i : Nat} {ch : Char} (hi : x[i]? = some ch) (hch : isBinary ch = false)
    (hbefore : ∀ j < i, x[j]? = some '0' ∨ x[j]? = some '1') : x.findIdx (fun ch => !isBinary ch) = i := by
  obtain ⟨hlt, rfl⟩ := List.getElem?_eq_some_iff.1 hi
  refine (List.findIdx_eq hlt).2 ⟨by rw [hch]; rfl, fun j hj => ?_⟩
  have hbit := hbefore j hj
  rw [List.getElem?_eq_getElem (hj.trans hlt), Option.some_inj, Option.some_inj, ← isBinary_iff] at hbit
  rw [hbit]
  rfl

theorem toPort_of_first_bad {L i : Nat} {x : List Char} {ch : Char} (hx : x.length = L) (hi : x[i]? = some ch)
    (hch : isBinary ch = false) (hbefore : ∀ j < i, x[j]? = some '0' ∨ x[j]? = some '1') :
    toPort L x = .error (.invalidSymbol i) := by
  have hbad : ¬ ∀ ch ∈ x, isBinary ch = true := fun h => by simp [h ch (List.mem_of_getElem? hi)] at hch
  rw [toPort_of_seqOfChars_eq_error (seqOfChars_of_not_binary hx hbad), findIdx_not_isBinary hi hch hbefore]

theorem toPort_of_binary {L : Nat} {x : List Char} (hx : x.length = L) (h : ∀ ch ∈ x, isBinary ch = true) :
    toPort L x = .ok (packSeq L (x.map fun ch => ch == '1')) := by
  rw [toPort, seqOfChars_of_binary hx h]
  rfl

theorem getLsbD_packSeq_map_eq_one {L s : Nat} {x : List Char} (hx : x.length = L) (hs : s < L) :
    (packSeq L (x.map fun ch => ch == '1')).getLsbD (L - 1 - s) = decide (x[s]? = some '1') := by
  rw [getLsbD_packSeq _ (by rw [List.length_map, hx]) s hs, List.getElem_map, List.getElem?_eq_getElem (hx ▸ hs),
    beq_eq_decide]
  exact decide_eq_decide.2 Option.some_inj.symm

/-- Settles O39: the length test, the first bad symbol, and the packed bits. -/
theorem adapterInbound : Obligations.AdapterInbound := by
  intro L x
  refine ⟨fun hlen => toPort_of_seqOfChars_eq_error (seqOfChars_of_length_ne hlen),
    fun i ch hlen hi h0 h1 => toPort_of_first_bad hlen hi ?_, fun hlen hbin => ?_⟩
  · simp [isBinary, h0, h1]
  · exact ⟨_, toPort_of_binary hlen fun ch hch => isBinary_iff.2 (hbin ch hch),
      fun s => getLsbD_packSeq_map_eq_one hlen⟩

theorem getElem?_fromPort {L s : Nat} (v : BitVec L) (hs : s < L) :
    (fromPort v)[s]? = some (v.getLsbD (L - 1 - s)) := by
  rw [fromPort, List.getElem?_eq_getElem (by simpa using hs), getElem_unpackSeq]

theorem toPort_charsOfSeq_fromPort {L : Nat} (v : BitVec L) : toPort L (charsOfSeq (fromPort v)) = .ok v := by
  rw [fromPort, toPort_charsOfSeq (length_unpackSeq v), packSeq_unpackSeq]

/-- An accepted string comes out again: it is the string of the sequence that was packed. -/
theorem charsOfSeq_fromPort_of_toPort_eq_ok {L : Nat} {x : List Char} {v : BitVec L} (h : toPort L x = .ok v) :
    charsOfSeq (fromPort v) = x := by
  cases hseq : seqOfChars L x with
  | error f =>
    rw [toPort_of_seqOfChars_eq_error hseq] at h
    cases h
  | ok b =>
    obtain ⟨hlen, rfl⟩ := eq_charsOfSeq_of_seqOfChars_eq_ok hseq
    rw [toPort_charsOfSeq hlen] at h
    cases h
    rw [fromPort, unpackSeq_packSeq b hlen]

/-- Settles O40: packing and unpacking are inverse, and an accepted string is a sequence's own. -/
theorem adapterOutbound : Obligations.AdapterOutbound :=
  ⟨fun _ v => ⟨length_unpackSeq v, fun _ => getElem?_fromPort v⟩, fun _ => toPort_charsOfSeq_fromPort,
    fun _ _ _ => charsOfSeq_fromPort_of_toPort_eq_ok⟩

/-! ## The error injector (48_host_interface.md R234 to R239) -/

theorem inRange_iff {K : Nat} {p : Int} : inRange K p = true ↔ 1 ≤ p ∧ p ≤ (nBits K : Int) := by simp [inRange]

theorem inRange_natCast {K p : Nat} (h1 : 1 ≤ p) (h2 : p ≤ nBits K) : inRange K (p : Int) = true :=
  inRange_iff.2 ⟨by exact_mod_cast h1, by exact_mod_cast h2⟩

theorem injectSingle_of_length_ne {K : Nat} {x : List Char} (h : x.length ≠ nBits K) (position : Option Int)
    (draw : PositionDraw K) : injectSingle K x position draw = .error (.wrongLength x.length (nBits K)) := by
  simp only [injectSingle, seqOfChars_of_length_ne h]

section
variable {K : Nat} {C : BitSeq} (hC : C.length = nBits K)
include hC

theorem injectSingle_charsOfSeq (position : Option Int) (draw : PositionDraw K) :
    injectSingle K (charsOfSeq C) position draw = injectSingleSeq K C position draw := by
  simp only [injectSingle, seqOfChars_charsOfSeq hC]

theorem injectDouble_charsOfSeq (pos1 pos2 : Option Int) (draw : PairDraw K) :
    injectDouble K (charsOfSeq C) pos1 pos2 draw = injectDoubleSeq K C pos1 pos2 draw := by
  simp only [injectDouble, seqOfChars_charsOfSeq hC]

theorem injectSingle_out_of_range {p : Int} (hp : ¬ inRange K p = true) (draw : PositionDraw K) :
    injectSingle K (charsOfSeq C) (some p) draw = .error (.positionOutOfRange [p]) :=
  (injectSingle_charsOfSeq hC ..).trans (if_neg hp)

theorem injectSingle_explicit {p : Nat} (h1 : 1 ≤ p) (h2 : p ≤ nBits K) (draw : PositionDraw K) :
    injectSingle K (charsOfSeq C) (some (p : Int)) draw = .ok (flipBit C p, p) :=
  (injectSingle_charsOfSeq hC ..).trans (if_pos (inRange_natCast h1 h2))

/-- The range of both positions is checked before they are compared (48_host_interface.md R236). -/
theorem injectDouble_out_of_range {p q : Int} (h : ¬ (inRange K p = true ∧ inRange K q = true)) (draw : PairDraw K) :
    injectDouble K (charsOfSeq C) (some p) (some q) draw = .error (.positionOutOfRange [p, q]) :=
  (injectDouble_charsOfSeq hC ..).trans (if_pos (by rwa [Bool.not_eq_true', ← Bool.not_eq_true, Bool.and_eq_true]))

theorem injectDouble_in_range {p q : Int} (hp : inRange K p = true) (hq : inRange K q = true) (draw : PairDraw K) :
    injectDouble K (charsOfSeq C) (some p) (some q) draw =
      if p = q then .error (.duplicatePosition p)
      else .ok (flipBit (flipBit C p.toNat) q.toNat, p.toNat, q.toNat) := by
  rw [injectDouble_charsOfSeq hC, injectDoubleSeq, if_neg (by simp [hp, hq])]

theorem injectDouble_duplicate {p : Int} (hp : inRange K p = true) (draw : PairDraw K) :
    injectDouble K (charsOfSeq C) (some p) (some p) draw = .error (.duplicatePosition p) :=
  (injectDouble_in_range hC hp hp draw).trans (if_pos rfl)

theorem injectDouble_explicit {p q : Nat} (hp1 : 1 ≤ p) (hp2 : p ≤ nBits K) (hq1 : 1 ≤ q) (hq2 : q ≤ nBits K)
    (hne : p ≠ q) (draw : PairDraw K) :
    injectDouble K (charsOfSeq C) (some (p : Int)) (some (q : Int)) draw =
      .ok (flipBit (flipBit C p) q, p, q) :=
  (injectDouble_in_range hC (inRange_natCast hp1 hp2) (inRange_natCast hq1 hq2) draw).trans
    (if_neg (by exact_mod_cast hne))

theorem bitAt_flipBit_flipBit {p q : Nat} (hp1 : 1 ≤ p) (hp2 : p ≤ nBits K) (hq1 : 1 ≤ q) (hq2 : q ≤ nBits K)
    (hne : p ≠ q) {x : Nat} (hx : 1 ≤ x) :
    bitAt (flipBit (flipBit C p) q) x = Bool.xor (bitAt C x) (decide (x = p ∨ x = q)) := by
  rw [← flipAll_pair, bitAt_flipAll (by simp [hne]) (by simp [hC, hp1, hp2, hq1, hq2]) hx]
  simp

end

/-- Settles O41: the length check, the range check, and the flip of the explicit or the drawn position. -/
theorem injectSingleFlipsOnePosition : Obligations.InjectSingleFlipsOnePosition := by
  intro K draw
  refine ⟨fun x position h => injectSingle_of_length_ne h position draw, fun C p hC hp => ?_,
    fun C p hC h1 h2 => ⟨_, injectSingle_explicit hC h1 h2 draw, ?_⟩, fun C hC => ⟨_, injectSingle_drawn hC draw, ?_⟩⟩
  · exact injectSingle_out_of_range hC (by rw [inRange_iff]; omega) draw
  · exact ⟨(length_flipBit C p).trans hC, fun q hq _ => bitAt_flipBit C p q h1 (hC ▸ h2) hq⟩
  · exact ⟨(length_flipBit C _).trans hC, fun q hq _ => bitAt_flipBit C _ q draw.one_le (hC ▸ draw.le_n) hq⟩

/-- Settles O42: the range check, then the comparison, and the two flips at the explicit or the drawn positions. -/
theorem injectDoubleFlipsTwoPositions : Obligations.InjectDoubleFlipsTwoPositions := by
  intro K draw C hC
  refine ⟨fun p q h => ?_, fun p h1 h2 => injectDouble_duplicate hC (inRange_iff.2 ⟨h1, h2⟩) draw,
    fun p q hp1 hp2 hq1 hq2 hne => ⟨_, injectDouble_explicit hC hp1 hp2 hq1 hq2 hne draw, fun x hx _ => ?_⟩,
    ⟨_, injectDouble_drawn hC draw, fun x hx _ => ?_⟩,
    fun p => ⟨injectDouble_charsOfSeq hC (some p) none draw, injectDouble_charsOfSeq hC none (some p) draw⟩⟩
  · refine injectDouble_out_of_range hC ?_ draw
    rwa [inRange_iff, inRange_iff]
  · exact bitAt_flipBit_flipBit hC hp1 hp2 hq1 hq2 hne hx
  · exact bitAt_flipBit_flipBit hC draw.one_le1 draw.le_n1 draw.one_le2 draw.le_n2 draw.distinct hx

end Sys2Proof.Machine

namespace Sys2Proof.Machine

/-! ## No stop, and the reserved op (60_exceptions.md R260, R265, R272) -/

/-- A step writes the response register and takes one cycle of the inputs. -/
theorem exists_rsp_of_step (s : State) :
    ∃ r : Response s.cfg, step s = .next { cfg := s.cfg, inputs := s.inputs.tail, rsp := r } := by
  rcases step_cases s with ⟨-, hreset⟩ | ⟨-, -, haccept⟩ | ⟨-, -, hidle⟩
  · exact ⟨_, hreset⟩
  · exact ⟨_, haccept⟩
  · exact ⟨_, hidle⟩

/-- The constant outputs are functions of the instance. -/
theorem outputs_of_inputs_rsp (s : State) (ps : List (PortIn s.cfg)) (r : Response s.cfg) :
    outputs { cfg := s.cfg, inputs := ps, rsp := r } = { outputs s with rsp := r } := rfl

/-- Settles O24: the three edges write the register only, and the other outputs read the instance only. -/
theorem stepNeverStops : Obligations.StepNeverStops := by
  intro s
  obtain ⟨r, hstep⟩ := exists_rsp_of_step s
  exact ⟨r, hstep, outputs_of_inputs_rsp s s.inputs.tail r⟩

theorem exec_rsvd (s : State) : exec .rsvd s = .next (acceptEdge s 3 (reservedResult s.cfg)) :=
  exec_of_wellFormed (i := .rsvd) rfl

/-- The edge of a reserved request: neither the operand ports nor the register enter the response. -/
theorem step_reserved_request (c : Config) (cw : BitVec (nBits c.K)) (data : BitVec c.K) (ps : List (PortIn c))
    (r : Response c) :
    step { cfg := c, inputs := requestCycle c 3 cw data :: ps, rsp := r } =
      .next { cfg := c, inputs := ps, rsp := { reservedResult c with valid := true, op := 3 } } :=
  calc step { cfg := c, inputs := requestCycle c 3 cw data :: ps, rsp := r }
      = exec (decodeReq c.K 3 cw data) { cfg := c, inputs := ps, rsp := r } :=
        stepRunsTheRequest c (requestCycle c 3 cw data) ps r rfl rfl
    _ = exec .rsvd { cfg := c, inputs := ps, rsp := r } := by rw [decodeReq_three]
    _ = _ := exec_rsvd _

/-- The edge of a request, accepted or lost beside `rst`, does not read the register (10_state.md R26). -/
theorem exists_step_of_reqValid {c : Config} {p : PortIn c} (hreq : p.reqValid = true) (ps : List (PortIn c)) :
    ∃ t : State, ∀ r : Response c, step { cfg := c, inputs := p :: ps, rsp := r } = .next t := by
  obtain ⟨hreset, haccept, -⟩ := cycleStep c p ps
  cases hrst : p.rst with
  | true => exact ⟨_, hreset hrst⟩
  | false =>
    obtain ⟨q, -, -, hq⟩ := haccept hrst hreq
    exact ⟨_, fun r => (hq r).2⟩

/-- Settles O20: the reserved op writes its record of zeros, which the next request's edge does not read. -/
theorem reservedReportsIllegalOp : Obligations.ReservedReportsIllegalOp := by
  refine ⟨exec_rsvd, step_reserved_request, fun c cw data q ps r hreq => ?_, rfl⟩
  obtain ⟨t, ht⟩ := exists_step_of_reqValid hreq ps
  refine ⟨t, ?_, ht r⟩
  rw [runEdges_succ_of_next (step_reserved_request c cw data (q :: ps) r), runEdges_succ_of_next (ht _)]
  rfl

/-! ## Refused host operations (60_exceptions.md R262, R267, R268) -/

theorem submit_error (s : State) (f : Failure) : submit s (.error f) = s := rfl

theorem submit_ok (s : State) (p : PortIn s.cfg) : submit s (.ok p) = { s with inputs := s.inputs ++ [p] } := rfl

/-- Whatever cycle an operation would present, the length check comes before it. -/
theorem map_toPort_of_length_ne {L : Nat} {x : List Char} {c : Config} (h : x.length ≠ L)
    (request : BitVec L → PortIn c) : (toPort L x).map request = .error (.wrongLength x.length L) := by
  rw [toPort_of_seqOfChars_eq_error (seqOfChars_of_length_ne h)]
  rfl

theorem encodeCycle_of_length_ne {c : Config} {x : List Char} (h : x.length ≠ c.K) :
    encodeCycle c x = .error (.wrongLength x.length c.K) :=
  map_toPort_of_length_ne h _

theorem evaluateCycle_of_length_ne {c : Config} {x : List Char} (h : x.length ≠ nBits c.K) :
    evaluateCycle c x = .error (.wrongLength x.length (nBits c.K)) :=
  map_toPort_of_length_ne h _

theorem decodeCycle_of_length_ne {c : Config} {x : List Char} (h : x.length ≠ nBits c.K) :
    decodeCycle c x = .error (.wrongLength x.length (nBits c.K)) :=
  map_toPort_of_length_ne h _

theorem encodeCycle_charsOfSeq {c : Config} {D : BitSeq} (hD : D.length = c.K) :
    encodeCycle c (charsOfSeq D) = .ok (requestCycle c 0 0 (packSeq c.K D)) := by
  rw [encodeCycle, toPort_charsOfSeq hD]
  rfl

/-- Settles O44: the length check refuses each operand by name, and a refusal submits nothing. -/
theorem refusedOperationPresentsNothing : Obligations.RefusedOperationPresentsNothing := by
  intro s
  refine ⟨submit_error s, fun x hx => ?_, fun x hx => ⟨?_, ?_⟩, fun D hD => ?_⟩
  · rw [encodeCycle_of_length_ne hx, submit_error]
  · rw [evaluateCycle_of_length_ne hx, submit_error]
  · rw [decodeCycle_of_length_ne hx, submit_error]
  · rw [encodeCycle_charsOfSeq hD, submit_ok]

/-- Settles O45: `failureCode` is R267's table. -/
theorem failureCodes : Obligations.FailureCodes :=
  ⟨fun _ => rfl, fun _ _ => rfl, fun _ => rfl, fun _ => rfl, fun _ => rfl, fun _ => rfl, rfl⟩

end Sys2Proof.Machine

namespace Sys2Proof.Machine

/-! ## Flips at the ports (10_state.md R23) -/

/-- Port bit `b` is position `N - b`, so a one-bit mask on the port flips that position of the word. -/
theorem unpackSeq_xor_twoPow {L b : Nat} (v : BitVec L) (hb : b < L) :
    unpackSeq (v ^^^ BitVec.twoPow L b) = flipBit (unpackSeq v) (L - b) := by
  refine ext_bitAt (by simp) fun p h1 h2 => ?_
  have hpL : p ≤ L := by simpa using h2
  have hbit : b = L - p ↔ p = L - b := by omega
  rw [bitAt_unpackSeq _ p h1 hpL, bitAt_flipBit _ (L - b) p (by omega) (by simp) h1, bitAt_unpackSeq _ p h1 hpL,
    BitVec.getLsbD_xor, BitVec.getLsbD_twoPow, decide_eq_true hb, Bool.true_and, decide_eq_decide.2 hbit]

/-! ## ENCODE, corruption and DECODE at the ports (43_decode.md R202, 70_reset_and_hazards.md R297) -/

/-- The edge of a request writes the result of the decoded instruction, whatever the register held (10_state.md R26). -/
theorem step_requestCycle (c : Config) (op : BitVec 2) (cw : BitVec (nBits c.K)) (data : BitVec c.K)
    (ps : List (PortIn c)) (r : Response c) :
    step { cfg := c, inputs := requestCycle c op cw data :: ps, rsp := r } =
      .next { cfg := c, inputs := ps, rsp :=
        { resultOf c (decodeReq c.K op cw data) with valid := true, op := op } } :=
  (stepRunsTheRequest c (requestCycle c op cw data) ps r rfl rfl).trans
    (exec_requested { cfg := c, inputs := ps, rsp := r } (requestCycle c op cw data))

theorem step_encode_request (c : Config) (cw : BitVec (nBits c.K)) (data : BitVec c.K) (ps : List (PortIn c))
    (r : Response c) :
    step { cfg := c, inputs := requestCycle c 0 cw data :: ps, rsp := r } =
      .next { cfg := c, inputs := ps, rsp := { encodeResult c (unpackSeq data) with valid := true, op := 0 } } :=
  step_requestCycle c 0 cw data ps r

theorem step_decode_request (c : Config) (cw : BitVec (nBits c.K)) (data : BitVec c.K) (ps : List (PortIn c))
    (r : Response c) :
    step { cfg := c, inputs := requestCycle c 2 cw data :: ps, rsp := r } =
      .next { cfg := c, inputs := ps, rsp := { decodeResult c (unpackSeq cw) with valid := true, op := 2 } } :=
  step_requestCycle c 2 cw data ps r

/-- The whole outcome of a word that nothing corrupted. -/
theorem hammingDecode_hammingEncode {K : Nat} {D : BitSeq} (hD : D.length = K) :
    hammingDecode K (hammingEncode K D) =
      { data := D, cls := .noError, reliable := true, syndrome := 0, overallParityOk := true, flipPos := 0,
        working := hammingEncode K D } := by
  rw [hammingDecode_of_evaluate (isCodeword_hammingEncode K D) (classify_clean K), flipPosition, correct_zero,
    extractData_hammingEncode hD, reliableClass]

/-- A DECODE reports its outcome, field by field (43_decode.md R198). -/
theorem decodeResult_of_hammingDecode {c : Config} {C : BitSeq} {o : DecodeOutcome} (h : hammingDecode c.K C = o) :
    decodeResult c C =
      { zeroResult c with
        cw := packSeq _ o.working, data := packSeq _ o.data, syndrome := zextTo _ o.syndrome,
        ovpOk := o.overallParityOk, cls := classCode o.cls, reliable := o.reliable, flipPos := zextTo _ o.flipPos } := by
  rw [decodeResult, h]

/-- A double error is reported with the received word as it came (43_decode.md R194). -/
theorem decodeResult_of_double {c : Config} {C : BitSeq} (h : (hammingDecode c.K C).cls = .doubleErrorDetected) :
    (decodeResult c C).cls = 3 ∧ (decodeResult c C).flipPos = 0 ∧ (decodeResult c C).cw = packSeq _ C ∧
      (decodeResult c C).reliable = false := by
  have hrow : classify c.K (syndrome c.K C) (overallParityOk c.K C) = .doubleErrorDetected := h
  obtain ⟨hcls, hflip, hreliable⟩ := decodeResult_of_classify hrow
  have hworking : (hammingDecode c.K C).working = C := by
    rw [hammingDecode_working, hrow, flipPosition, correct_zero]
  exact ⟨hcls, BitVec.eq_of_toNat_eq hflip, congrArg (packSeq _) hworking, hreliable⟩

section
variable {c : Config} {D : BitSeq} (hD : D.length = c.K)
include hD

/-- What the block answers to the word it encoded. -/
theorem decodeResult_no_flip :
    (decodeResult c (hammingEncode c.K D)).cls = 0 ∧ (decodeResult c (hammingEncode c.K D)).flipPos = 0 ∧
      (decodeResult c (hammingEncode c.K D)).data = packSeq _ D ∧
      (decodeResult c (hammingEncode c.K D)).cw = (encodeResult c D).cw ∧
      (decodeResult c (hammingEncode c.K D)).reliable = true := by
  rw [decodeResult_of_hammingDecode (hammingDecode_hammingEncode hD)]
  exact ⟨rfl, rfl, rfl, rfl, rfl⟩

/-- The flip position `N` is named by class 1 and every other by class 2 (43_decode.md R193). -/
theorem decodeResult_one_flip {p : Nat} (h1 : 1 ≤ p) (h2 : p ≤ nBits c.K) :
    (decodeResult c (flipBit (hammingEncode c.K D) p)).cls = (if p = nBits c.K then 1 else 2) ∧
      (decodeResult c (flipBit (hammingEncode c.K D) p)).flipPos.toNat = p ∧
      (decodeResult c (flipBit (hammingEncode c.K D) p)).data = packSeq _ D ∧
      (decodeResult c (flipBit (hammingEncode c.K D) p)).cw = (encodeResult c D).cw ∧
      (decodeResult c (flipBit (hammingEncode c.K D) p)).reliable = true := by
  rw [decodeResult_of_hammingDecode (hammingDecode_one_flip hD h1 h2)]
  exact ⟨apply_ite classCode .., toNat_zextTo_wPos h2, rfl, rfl, rfl⟩

end

/-- Settles O28: the DECODE request carries the encoded word with the positions of `e` flipped, and its register is the
outcome of no, one or two flips. -/
theorem encodeThenDecodeAtThePorts : Obligations.EncodeThenDecodeAtThePorts := by
  intro c d junk w ps qs r0
  have hD : (unpackSeq d).length = c.K := length_unpackSeq d
  have hword : unpackSeq (encodeResult c (unpackSeq d)).cw = hammingEncode c.K (unpackSeq d) :=
    unpackSeq_packSeq _ (length_hammingEncode c.K _)
  refine ⟨_, step_encode_request c w d ps r0, fun e => ⟨_, step_decode_request c _ junk qs _, ?_, ?_, ?_⟩⟩
  · rintro rfl
    have hsame : (encodeResult c (unpackSeq d)).cw ^^^ 0 = (encodeResult c (unpackSeq d)).cw := BitVec.xor_zero
    rw [hsame, hword]
    simpa only [packSeq_unpackSeq] using decodeResult_no_flip hD
  · rintro b hb rfl
    have hlast : b = 0 ↔ nBits c.K - b = nBits c.K := by omega
    rw [unpackSeq_xor_twoPow _ hb, hword]
    simpa only [hlast, packSeq_unpackSeq] using
      decodeResult_one_flip hD (p := nBits c.K - b) (by omega) (Nat.sub_le _ _)
  · rintro a b hab hb rfl
    obtain ⟨hdouble, -⟩ := hammingDecode_two_flips (unpackSeq d) (p := nBits c.K - a) (q := nBits c.K - b)
      (by omega) (Nat.sub_le _ _) (by omega) (Nat.sub_le _ _) (by omega)
    rw [← hword, ← unpackSeq_xor_twoPow _ (hab.trans hb), ← unpackSeq_xor_twoPow _ hb, BitVec.xor_assoc] at hdouble
    simpa only [packSeq_unpackSeq] using decodeResult_of_double hdouble

end Sys2Proof.Machine

namespace Sys2Proof.Machine

/-! ## Reset, and the register through cycles with no request (70_reset_and_hazards.md R290 to R295) -/

/-- Settles O25: the reset branch of the update rule. -/
theorem resetZeroesTheRegister : Obligations.ResetZeroesTheRegister := fun c p ps r hrst =>
  step_of_rst (s := { cfg := c, inputs := p :: ps, rsp := r }) hrst

/-- Settles O30: `legal_resetValue`, for `c` and for `K = 8`. -/
theorem legalAtReset : Obligations.LegalAtReset := fun c => ⟨legal_resetValue c, legal_resetValue Config.default⟩

/-- Settles O32: the register of `State.resetOf` is a reset edge's. -/
theorem reportsCodewordAtReset : Obligations.ReportsCodewordAtReset := fun c =>
  reportsCodeword_resetEdge (State.resetOf c)

/-- Cycles that each hold the register take only their inputs, however many they are. -/
theorem runEdges_of_step_holds {c : Config} {r : Response c} (rest : List (PortIn c)) : ∀ ps : List (PortIn c),
    (∀ p ∈ ps, ∀ qs, step { cfg := c, inputs := p :: qs, rsp := r } = .next { cfg := c, inputs := qs, rsp := r }) →
    runEdges ps.length { cfg := c, inputs := ps ++ rest, rsp := r } = .next { cfg := c, inputs := rest, rsp := r }
  | [], _ => rfl
  | p :: ps, h => by
    obtain ⟨hp, hps⟩ := List.forall_mem_cons.1 h
    exact (runEdges_succ_of_next (hp (ps ++ rest)) ps.length).trans (runEdges_of_step_holds rest ps hps)

/-- Settles O26: the first reset edge replaces the draw, and the others hold the reset value. -/
theorem resetHoldsFromEveryPowerUp : Obligations.ResetHoldsFromEveryPowerUp := by
  intro c draw rsts rest hne hrst
  cases rsts with
  | nil => exact absurd rfl hne
  | cons p ps =>
    obtain ⟨hp, hps⟩ := List.forall_mem_cons.1 hrst
    have hholds := runEdges_of_step_holds rest ps fun q hq qs =>
      resetZeroesTheRegister c q qs (Response.resetValue c) (hps q hq)
    exact (runEdges_succ_of_next (resetZeroesTheRegister c p (ps ++ rest) draw hp) ps.length).trans hholds

/-- An idle edge clears `rsp_valid` and holds every other field (10_state.md R26). -/
theorem step_idle_cycle {c : Config} {p : PortIn c} (h : p.rst = false ∧ p.reqValid = false) (ps : List (PortIn c))
    (r : Response c) :
    step { cfg := c, inputs := p :: ps, rsp := r } =
      .next { cfg := c, inputs := ps, rsp := { r with valid := false } } :=
  step_of_idle (s := { cfg := c, inputs := p :: ps, rsp := r }) h.1 h.2

/-- Idle edges hold a response; the first of them clears `rsp_valid`, which the accepting edge had set. -/
theorem runEdges_idle {c : Config} {a : Response c} (ha : a.valid = true) (rest : List (PortIn c))
    {idle : List (PortIn c)} (h : ∀ q ∈ idle, q.rst = false ∧ q.reqValid = false) :
    runEdges idle.length { cfg := c, inputs := idle ++ rest, rsp := a } =
      .next { cfg := c, inputs := rest, rsp := { a with valid := idle.isEmpty } } := by
  cases idle with
  | nil =>
    rw [List.isEmpty_nil, ← ha]
    rfl
  | cons q qs =>
    obtain ⟨hq, hqs⟩ := List.forall_mem_cons.1 h
    have hholds := runEdges_of_step_holds rest qs fun q' hq' ps =>
      step_idle_cycle (hqs q' hq') ps { a with valid := false }
    exact (runEdges_succ_of_next (step_idle_cycle hq (qs ++ rest) a) qs.length).trans hholds

/-- Settles O27: the accepting edge writes the response with `rsp_valid` 1, and the idle edges after it hold it. -/
theorem responseHoldsWhileIdle : Obligations.ResponseHoldsWhileIdle := by
  intro c p idle rest r hrst hreq hidle
  obtain ⟨-, haccept, -⟩ := cycleStep c p (idle ++ rest)
  obtain ⟨a, hvalid, -, ha⟩ := haccept hrst hreq
  exact ⟨a, hvalid, (ha r).2, runEdges_idle hvalid rest hidle⟩

end Sys2Proof.Machine
